-- ==== Sys2Proof/Word.lean ====
section
/-! DEFINITION. The word types of the block (spec/00_scope.md R9): a byte is an unsigned integer in 0 to 255, a 16-bit
field is two bytes, and no value is signed. Everything else the spec counts (FIFO lengths, ring indices, consumed
counts, packet counts) is a natural number, because R9 says that all arithmetic is on unbounded naturals. -/

namespace Sys2Proof

/-- One byte of the UART stream, of the FIFO, of a frame (R9). -/
abbrev Byte := BitVec 8

/-- A 16-bit field of a frame: distance, length, command code (R53, R88). -/
abbrev Half := BitVec 16

end Sys2Proof
end

