-- ==== Sys2Proof/Config.lean ====
section
/-! DEFINITION. What an implementation of the block fixes (spec/00_scope.md R7, spec/10_state.md R29) and the free values
of the model: constants with no body, of which nothing can be proved. -/

namespace Sys2Proof

/-- The transport's answer to `TransportRead(max)`: bytes in arrival order, or a genuine I/O failure
(spec/60_exceptions.md R198). -/
inductive ReadAnswer where
  | data (bs : List Byte)
  | fail
  deriving DecidableEq, Repr, Inhabited

/-- The transport's answer to `TransportWrite(bs)` (spec/60_exceptions.md R199). -/
inductive WriteAnswer where
  | done
  | fail
  deriving DecidableEq, Repr, Inhabited

/-- The parameters of the block, fixed at construction and never written afterwards (R7, R29). They stand in State, so
that a statement about every state is a statement about every value of them; `State.Inv` carries the two bounds the spec
sets, `C >= 5` (R8) and `CHUNK_MAX >= 1` (R7). -/
structure Params where
  /-- `C`, the capacity of the receive FIFO in bytes. -/
  capacity : Nat
  /-- `CHUNK_MAX`, the most bytes one POLL asks of the transport. -/
  chunkMax : Nat
  /-- `MAX_WAIT`; no rule reads it as a number (R29), READ_LATEST sees it only through `Expired()`. -/
  maxWait : Nat
  /-- `RETRY_DELAY`; no rule depends on its value (R7). -/
  retryDelay : Nat
  /-- The transport handle; it has no value a rule reads (R29). -/
  handle : Nat
  deriving DecidableEq, Repr

namespace Config

/-- The capacity this hardware is taken to have (R7, spec/92_eei_decisions.md D3). -/
def capacity : Nat := 1024

/-- `CHUNK_MAX - 1`, open (D4): written so that `CHUNK_MAX >= 1` holds whatever it is (assumption 3). -/
opaque chunkMaxLessOne : Nat

/-- `CHUNK_MAX` of the block after reset, an open parameter with `CHUNK_MAX >= 1` (R7, D4). -/
def chunkMax : Nat := chunkMaxLessOne + 1

/-- `MAX_WAIT` of the block after reset, open, possibly zero (R7, D14, spec/91_not_in_source.md N4). -/
opaque maxWait : Nat

/-- `RETRY_DELAY - 1`, open (D14); R159 says that the delay is greater than zero. -/
opaque retryDelayLessOne : Nat

/-- `RETRY_DELAY` of the block, open and greater than zero (R7, R159). -/
def retryDelay : Nat := retryDelayLessOne + 1

/-- The transport handle the block is created with (R29, R215). -/
opaque handle : Nat

/-- FREE VALUE: what the transport answers to the `n`-th draw of a run when State lists no answer (R198: "a draw").
`State.takeRead` cuts it to the `CHUNK_MAX` bytes the contract allows (assumption 1). -/
opaque freeRead : Nat → ReadAnswer

/-- FREE VALUE: what the transport answers to a write when State lists no answer (R199, assumption 1). -/
opaque freeWrite : Nat → WriteAnswer

/-- FREE VALUE: what `Expired()` answers when State lists no answer (R159, assumption 1). -/
opaque freeExpired : Nat → Bool

/-- FREE VALUE: what a ring cell holds that nothing has written since reset (R34, spec/93_implementation_defined.md U22:
"any value; never readable"; assumption 4). -/
opaque freeCell : Nat → Byte

end Config

end Sys2Proof
end

