-- ==== Sys2Proof/Syntax.lean ====
section
/-! DEFINITION. The syntax of the block: one constructor of `Instr` for each row of spec/opcode_table.json, and the forms in
which an instruction is written down (spec/30_encoding.md). Ten rows are select codes of the operation port (R91, R93),
two are the scanner's stream-level decodes (R89), four are frame formats (R82, R83, R84). -/

namespace Sys2Proof

/-- The device's output mode, the operand of SEND_MODE: `mode[0]` is 0 for minimal and 1 for standard (R91, R174). -/
inductive OutputMode where
  | minimal
  | standard
  deriving DecidableEq, Repr

/-- The rows of the opcode table. -/
inductive Instr where
  /-- APPEND `b` (R110). -/
  | append (b : Byte)
  /-- DRAIN `n` (R113). -/
  | drain (n : Nat)
  /-- SNAPSHOT (R115). -/
  | snapshot
  /-- SCAN (R140). -/
  | scan
  /-- POLL (R150). -/
  | poll
  /-- READ_LATEST (R158). -/
  | readLatest
  /-- BUILD_COMMAND `code`, `params` (R170). -/
  | buildCommand (code : Half) (params : List Byte)
  /-- SEND_MODE `mode` (R174). -/
  | sendMode (mode : OutputMode)
  /-- RESERVED.0: select code 0 (R93). -/
  | reserved0
  /-- RESERVED.9_F: a select code 9 to 15 (R93). -/
  | reserved9F (op : BitVec 4)
  /-- FRAME.MIN: a minimal frame at the scan position, with its state code and its two distance bytes (R132). -/
  | frameMin (state lo hi : Byte)
  /-- SKIP: an unsynchronised byte `b0` at the scan position; `b1` to `b4` are only looked at (R133). -/
  | skip (b0 b1 b2 b3 b4 : Byte)
  /-- CMD: the command frame of `code` and `params` (R82, R170). -/
  | cmd (code : Half) (params : List Byte)
  /-- CMD.SETMIN: the 18-byte command frame "switch to minimal output" (R83, R174). -/
  | cmdSetMin
  /-- CMD.SETSTD: the 18-byte command frame "switch to standard output" (R83, R174). -/
  | cmdSetStd
  /-- FRAME.STD: the standard reading frame with `payload` (R84, R145). -/
  | frameStd (payload : List Byte)
  deriving DecidableEq, Repr

/-- The fields of the operation port when the host issues an operation (R91). `n` is a natural number because its width
depends on `C` (R8); the decoder checks that the port can carry it. A field an operation does not use is not looked at. -/
structure PortIn where
  op : BitVec 4
  din : Byte
  n : Nat
  code : Half
  plen : Half
  params : List Byte
  mode : BitVec 1
  deriving DecidableEq, Repr

/-- How an instruction is written down: the fields of the operation port (R91), the bytes of a window from the scan position
on (R89), or the bytes of one whole frame, first byte of the stream first (R82, R83, R84). -/
inductive Encoded where
  | port (p : PortIn)
  | stream (bs : List Byte)
  | frame (bs : List Byte)
  deriving DecidableEq, Repr

end Sys2Proof
end

