-- ==== Sys2Proof/Decode.lean ====
section
/-! DEFINITION. The protocol constants, the byte order, the decoder and the encoder (spec/30_encoding.md). The decoder is
total: what is no instruction is rejected by name. The encoder is written from the same tables. -/

namespace Sys2Proof

/-! ## Protocol constants (R85: "must match bit-exactly") -/

/-- Header of a minimal frame (R80). -/
def minHeader : Byte := 0x6E
/-- Trailer of a minimal frame (R80). -/
def minTrailer : Byte := 0x62
/-- Header of a command frame (R82). -/
def cmdHeader : List Byte := [0xFD, 0xFC, 0xFB, 0xFA]
/-- Trailer of a command frame (R82). -/
def cmdTrailer : List Byte := [0x04, 0x03, 0x02, 0x01]
/-- Header of a standard reading frame (R84). -/
def stdHeader : List Byte := [0xF4, 0xF3, 0xF2, 0xF1]
/-- Trailer of a standard reading frame (R84). -/
def stdTrailer : List Byte := [0xF8, 0xF7, 0xF6, 0xF5]
/-- The code of the one command the spec defines, "switch output mode" (R83). -/
def switchOutputCode : Half := 0x007A
/-- The parameter payload of the output-mode command (R83, R173). -/
def modeParams : OutputMode → List Byte
  | .minimal => [0, 0, 0, 0, 0, 0]
  | .standard => [0, 0, 0, 1, 0, 0]
/-- The complete frame "switch to minimal output", as R83 lists its 18 bytes. -/
def setMinFrame : List Byte :=
  [0xFD, 0xFC, 0xFB, 0xFA, 0x08, 0x00, 0x7A, 0x00, 0x00, 0x00, 0x00, 0x00, 0x00, 0x00, 0x04, 0x03, 0x02, 0x01]
/-- The complete frame "switch to standard output", as R83 lists its 18 bytes. -/
def setStdFrame : List Byte :=
  [0xFD, 0xFC, 0xFB, 0xFA, 0x08, 0x00, 0x7A, 0x00, 0x00, 0x00, 0x00, 0x01, 0x00, 0x00, 0x04, 0x03, 0x02, 0x01]

/-! ## Byte order and widths -/

/-- Bits 7 to 0 of a 16-bit field, the byte that comes first in the stream (R53). -/
def loByte (h : Half) : Byte := h.extractLsb' 0 8
/-- Bits 15 to 8 of a 16-bit field, the byte that comes second (R53). -/
def hiByte (h : Half) : Byte := h.extractLsb' 8 8
/-- Two stream bytes read as a little-endian 16-bit value: `zext_16(lo) | (zext_16(hi) << 8)` (R53, R88). -/
def le16 (lo hi : Byte) : Half := lo.zeroExtend 16 ||| (hi.zeroExtend 16 <<< (8 : Nat))
/-- The two stream bytes of a 16-bit field, low byte first (R53, R88). -/
def le16Bytes (h : Half) : List Byte := [loByte h, hiByte h]

/-- The width in bits of a FIFO length, of a consumed count and of DRAIN's operand port: `ceil(log2(C + 1))`, 11 for
`C = 1024` (R8, R91), written as `floor(log2 C) + 1`. -/
def countWidth (c : Nat) : Nat := Nat.log2 c + 1

/-! ## Decoding -/

/-- Why the decoder rejects what it is given. Every rejection is safe: the block answers nothing to it. -/
inductive Reject where
  /-- DRAIN's operand does not fit its port (R91). -/
  | countTooWide
  /-- BUILD_COMMAND's `plen` is not the number of parameter bytes presented (R91: `params[0 .. plen - 1]`). -/
  | paramCount
  /-- Fewer than five bytes stand at the scan position: nothing is decoded (R89, R134). -/
  | fewerThanFive
  /-- The bytes begin with the header of no frame format of the table (R85). -/
  | frameHeader
  /-- The length field of a frame does not agree with its length (R87). -/
  | frameLength
  /-- The frame does not end with its format's trailer (R85). -/
  | frameTrailer
  deriving DecidableEq, Repr

/-- The host level: the select code names the operation (R91); 0 and 9 to 15 are reserved (R93). `c` is the capacity, on
which the width of DRAIN's port depends (R8). -/
def decodePort (c : Nat) (p : PortIn) : Except Reject Instr :=
  match p.op.toNat with
  | 0 => .ok .reserved0
  | 1 => .ok (.append p.din)
  | 2 => if p.n < 2 ^ countWidth c then .ok (.drain p.n) else .error .countTooWide
  | 3 => .ok .snapshot
  | 4 => .ok .scan
  | 5 => .ok .poll
  | 6 => .ok .readLatest
  | 7 => if p.params.length = p.plen.toNat then .ok (.buildCommand p.code p.params) else .error .paramCount
  | 8 => .ok (.sendMode (if p.mode = 0 then .minimal else .standard))
  | _ => .ok (.reserved9F p.op)

/-- The stream level: FRAME.MIN when the first byte is the header and the fifth the trailer, SKIP for anything else, and
nothing with fewer than five bytes (R89). -/
def decodeStream : List Byte → Except Reject Instr
  | b0 :: b1 :: b2 :: b3 :: b4 :: _ =>
    if b0 = minHeader ∧ b4 = minTrailer then .ok (.frameMin b1 b2 b3) else .ok (.skip b0 b1 b2 b3 b4)
  | _ => .error .fewerThanFive

/-- The length field of a frame: bytes 4 and 5, little-endian (R82, R84). -/
def frameLengthField (bs : List Byte) : Nat := (le16 (bs.getD 4 0) (bs.getD 5 0)).toNat

/-- A command frame (R82): length field `2 + P` over code and parameters, total length `10 +` the length field (R87). -/
def decodeCmdFrame (bs : List Byte) : Except Reject Instr :=
  if frameLengthField bs < 2 ∨ bs.length ≠ 10 + frameLengthField bs then .error .frameLength
  else if bs.drop (6 + frameLengthField bs) ≠ cmdTrailer then .error .frameTrailer
  else .ok (.cmd (le16 (bs.getD 6 0) (bs.getD 7 0)) ((bs.drop 8).take (frameLengthField bs - 2)))

/-- A standard reading frame (R84): total length `10 + N` (R87). No field of the payload is projected (R84). -/
def decodeStdFrame (bs : List Byte) : Except Reject Instr :=
  if bs.length ≠ 10 + frameLengthField bs then .error .frameLength
  else if bs.drop (6 + frameLengthField bs) ≠ stdTrailer then .error .frameTrailer
  else .ok (.frameStd ((bs.drop 6).take (frameLengthField bs)))

/-- A whole frame of the formats the table lists beside FRAME.MIN; the two frames of R83 are rows of their own, so they are
tried before the general command frame. The scanner itself never uses this decoder (R145). -/
def decodeFrame (bs : List Byte) : Except Reject Instr :=
  if bs = setMinFrame then .ok .cmdSetMin
  else if bs = setStdFrame then .ok .cmdSetStd
  else if bs.take 4 = cmdHeader then decodeCmdFrame bs
  else if bs.take 4 = stdHeader then decodeStdFrame bs
  else .error .frameHeader

/-- The decoder, total on anything that can be presented to it. -/
def decode (c : Nat) : Encoded → Except Reject Instr
  | .port p => decodePort c p
  | .stream bs => decodeStream bs
  | .frame bs => decodeFrame bs

/-! ## Encoding -/

/-- The operation port with select code `op` and every operand field zero. -/
def selectPort (op : BitVec 4) : PortIn := { op := op, din := 0, n := 0, code := 0, plen := 0, params := [], mode := 0 }

/-- The bit of `mode[0]` (R91). -/
def modeBit : OutputMode → BitVec 1
  | .minimal => 0
  | .standard => 1

/-- The bytes of a command frame (R82). -/
def encodeCmdFrame (code : Half) (params : List Byte) : List Byte :=
  cmdHeader ++ le16Bytes (BitVec.ofNat 16 (2 + params.length)) ++ le16Bytes code ++ params ++ cmdTrailer

/-- The bytes of a standard reading frame (R84). -/
def encodeStdFrame (payload : List Byte) : List Byte :=
  stdHeader ++ le16Bytes (BitVec.ofNat 16 payload.length) ++ payload ++ stdTrailer

/-- The encoder, from R91 (operations), R80 and R89 (stream level) and R82 to R84 (frames). -/
def encode : Instr → Encoded
  | .append b => .port { selectPort 1 with din := b }
  | .drain n => .port { selectPort 2 with n := n }
  | .snapshot => .port (selectPort 3)
  | .scan => .port (selectPort 4)
  | .poll => .port (selectPort 5)
  | .readLatest => .port (selectPort 6)
  | .buildCommand code params =>
    .port { selectPort 7 with code := code, plen := BitVec.ofNat 16 params.length, params := params }
  | .sendMode m => .port { selectPort 8 with mode := modeBit m }
  | .reserved0 => .port (selectPort 0)
  | .reserved9F op => .port (selectPort op)
  | .frameMin s lo hi => .stream [minHeader, s, lo, hi, minTrailer]
  | .skip b0 b1 b2 b3 b4 => .stream [b0, b1, b2, b3, b4]
  | .cmd code params => .frame (encodeCmdFrame code params)
  | .cmdSetMin => .frame setMinFrame
  | .cmdSetStd => .frame setStdFrame
  | .frameStd payload => .frame (encodeStdFrame payload)

/-- The number of stream bytes a stream-level decode accounts for: 5 for FRAME.MIN, 1 for SKIP (R87); 0 for a row that is no
stream-level decode. -/
def streamLength : Instr → Nat
  | .frameMin _ _ _ => 5
  | .skip _ _ _ _ _ => 1
  | .append _ | .drain _ | .snapshot | .scan | .poll | .readLatest | .buildCommand _ _ | .sendMode _ | .reserved0
  | .reserved9F _ | .cmd _ _ | .cmdSetMin | .cmdSetStd | .frameStd _ => 0

/-! ## The opcode table's numbering -/

/-- The `k` bytes of the number `w`, the byte that comes first in the stream the most significant
(spec/92_eei_decisions.md D18, spec/00_scope.md R10). -/
def bytesOfTable : Nat → Nat → List Byte
  | 0, _ => []
  | k + 1, w => BitVec.ofNat 8 (w / 256 ^ k) :: bytesOfTable k w

/-- A frame of which the table gives the 4 header bytes alone (rows CMD and FRAME.STD): the shortest frame of that format,
with every operand zero and the length field and the trailer as the format fixes them (assumption 11). -/
def frameOfHeader (header : List Byte) : List Byte :=
  if header = cmdHeader then encodeCmdFrame 0 []
  else if header = stdHeader then encodeStdFrame []
  else header

/-- What stands for the table's `nbits` bits `w`: up to 8 bits are a select code with zero operand fields, 32 bits the header
of a frame, 40 bits the five bytes at a scan position, more a whole frame (assumption 11). -/
def encodedOfTable (nbits w : Nat) : Encoded :=
  if nbits ≤ 8 then .port (selectPort (BitVec.ofNat 4 w))
  else if nbits = 32 then .frame (frameOfHeader (bytesOfTable 4 w))
  else if nbits = 40 then .stream (bytesOfTable 5 w)
  else .frame (bytesOfTable (nbits / 8) w)

/-- The instruction the decoder reads from the table's `nbits` bits `w`, at this hardware's capacity of 1024. -/
def decodeTableWord (nbits w : Nat) : Option Instr :=
  match decode Config.capacity (encodedOfTable nbits w) with
  | .ok i => some i
  | .error _ => none

end Sys2Proof
end

