-- ==== Sys2Proof/Machine/State.lean ====
section
/-! DEFINITION. The state of the machine as plain data (spec/10_state.md), the reasons a step can stop, and the state after
reset. The block's own state is the receive FIFO in its ring form (R22), the cached last packet (R26), the construction
parameters (R29) and, while an operation runs, the scan in progress (R24) and the waiting READ_LATEST (R158). The other
fields are the other two agents of R5: the host's next moves, the environment's answers, and what has been observed. -/

namespace Sys2Proof.Machine

/-- A Measurement Packet (R27). No rule of the spec produces a `standard` one (R145). -/
inductive Packet where
  | minimal (presence : Bool) (distance : Half)
  | standard (dataType : Byte) (distance : Half)
  deriving DecidableEq, Repr

/-- A Reading: a packet and its freshness flag (R28). It is a response value only and is never stored. -/
structure Reading where
  packet : Packet
  fresh : Bool
  deriving DecidableEq, Repr

/-- The error responses (R185). The arguments are those of the spec's `raise E(info)`; nothing of an error is kept by the
block (R191). -/
inductive Err where
  /-- The transport answered a read with `Fail` (R186). -/
  | transportReadFailure
  /-- The transport answered a write with `Fail` (R187). -/
  | transportWriteFailure
  /-- DRAIN asked for `n` bytes of the `len` held (R188). -/
  | drainRange (n len : Nat)
  /-- The select code is reserved (R189). -/
  | illegalOp
  /-- BUILD_COMMAND was given `p` parameter bytes, more than 65533 (R190). -/
  | lengthRange (p : Nat)
  deriving DecidableEq, Repr

/-- What an operation answers the host: `Ok(v)` for each kind of `v`, or `Err(E)` (R11, R91). -/
inductive Response where
  /-- `Ok(())` of APPEND, DRAIN and SEND_MODE. -/
  | done
  /-- The copy SNAPSHOT returns (R115). -/
  | window (w : List Byte)
  /-- The packets and the consumed count of SCAN (R140). -/
  | scanned (packets : List Packet) (consumed : Nat)
  /-- The packets of POLL (R156). -/
  | packets (packets : List Packet)
  /-- The Reading of READ_LATEST, or no Reading (R158). -/
  | reading (r : Option Reading)
  /-- The command frame of BUILD_COMMAND (R170). -/
  | frame (bs : List Byte)
  /-- An error response (R185). -/
  | err (e : Err)
  deriving DecidableEq, Repr

/-- Ring cells that have been written, as address and byte, addresses strictly rising. An unlisted cell has no value here:
what it holds is unspecified (R34), and `Fifo.cell` reads a free value there. -/
abbrev Memory := List Host.Cell

/-- The receive FIFO in its ring form: cells, head index, length counter (R22). -/
structure Fifo where
  /-- The cells `x[0]` to `x[C - 1]`. -/
  mem : Memory
  /-- The head index, 10 bits for `C = 1024`. -/
  head : Nat
  /-- The length counter, 11 bits for `C = 1024`. -/
  cnt : Nat
  deriving DecidableEq, Repr

/-- A scan in progress (R31): the window it decodes, the scan position `pc` (R24), and the packets found so far. -/
structure ScanRun where
  window : List Byte
  pc : Nat
  out : List Packet
  deriving DecidableEq, Repr

/-- The environment of R5 (c) and R159: the answers it will give, oldest first, and the number of free answers drawn so far.
A list that has run out is followed by free values (assumption 1). -/
structure Env where
  /-- Answers to `TransportRead` (R198). -/
  reads : List ReadAnswer
  /-- Answers to `TransportWrite` (R199). -/
  writes : List WriteAnswer
  /-- Answers to `Expired()` (R159). -/
  expired : List Bool
  /-- How many free answers have been drawn; the model's own counter. -/
  draws : Nat
  deriving DecidableEq, Repr

/-- One move of the host (R229). -/
inductive Request where
  /-- Issue the operation whose port fields are `p` (R91). -/
  | op (p : PortIn)
  /-- The reset event: the block is created again with a transport handle and a `MAX_WAIT` (R215). -/
  | reset (handle maxWait : Nat)
  /-- A frame of one of the table's frame-format rows, put before the block as an item of its own (assumption 9). -/
  | frame (bs : List Byte)
  deriving DecidableEq, Repr

/-- The whole state. -/
structure State where
  /-- The construction parameters (R29). -/
  cfg : Params
  /-- The receive FIFO (R20, R22). -/
  fifo : Fifo
  /-- The cached last packet `LAST` (R26). -/
  last : Option Packet
  /-- The scan in progress, `none` between operations (R24, R25, R31). -/
  scan : Option ScanRun
  /-- A READ_LATEST has been issued and has not yet answered (R158, R163). -/
  waiting : Bool
  /-- The environment's answers (R5, R159). -/
  env : Env
  /-- The moves the host will make, the next one first (R5, R6). -/
  host : List Request
  /-- The byte sequences handed to `TransportWrite`, oldest first (R199). -/
  handed : List (List Byte)
  /-- The responses given so far, oldest first: the observation of the run (R6). -/
  responses : List Response
  deriving DecidableEq, Repr

/-- The block after reset (R34, R216) with nothing observed, nothing issued and no answer listed: `Q` empty with `head = 0`,
`cnt = 0` and every cell unspecified, `LAST = None`, the parameters of R7. -/
def State.reset : State where
  cfg :=
    { capacity := Config.capacity
      chunkMax := Config.chunkMax
      maxWait := Config.maxWait
      retryDelay := Config.retryDelay
      handle := Config.handle }
  fifo := { mem := [], head := 0, cnt := 0 }
  last := none
  scan := none
  waiting := false
  env := { reads := [], writes := [], expired := [], draws := 0 }
  host := []
  handed := []
  responses := []

/-- Why the machine stops. -/
inductive Fault where
  /-- Raised by POLL and READ_LATEST: the environment's next read answer holds `got` bytes, more than the `asked`
  `CHUNK_MAX`. It is outside the transport's contract and the spec gives it no step (R198, D20, U26). Safe. -/
  | readAnswerTooLong (asked got : Nat)
  deriving DecidableEq, Repr

/-- Why an instruction is given no meaning. -/
inductive Refusal where
  /-- Raised by an arm of `exec` that has no meaning yet; no arm is left that raises it. Safe. -/
  | notModelled (mnemonic : String)
  /-- Raised by `step` when what is presented to the block decodes to no instruction. Safe. -/
  | undecodable (r : Reject)
  /-- Raised by an operation that is issued while another is in progress: overlapping operations have no meaning (R220,
  D22, U11). `step` never issues one. Safe. -/
  | operationInProgress
  /-- Raised by FRAME.MIN and SKIP in a scan with fewer than five bytes left: both require `L - pc >= 5` (R132, R133).
  `step` stops the scan there instead (R134). Safe. -/
  | fewerThanFiveBytes
  deriving DecidableEq, Repr

end Sys2Proof.Machine
end

