-- ==== Sys2Proof/Machine/Flags.lean ====
section
/-! DEFINITION. The booleans of the block (spec/10_state.md R30), the status codes (spec/60_exceptions.md R185), and the fields
in which packets, `LAST` and responses stand on the response port (spec/30_encoding.md R92, R94, R95). -/

namespace Sys2Proof.Machine

/-- The presence boolean of a state code: true for 2 and 3 only, and no code is an error (R81, R135). -/
def presence (state : Byte) : Bool := state = 2 ∨ state = 3

/-- The code of an error on `status[2:0]` (R185). -/
def Err.code : Err → BitVec 3
  | .transportReadFailure => 1
  | .transportWriteFailure => 2
  | .drainRange _ _ => 3
  | .illegalOp => 4
  | .lengthRange _ => 5

/-- `status[2:0]` of a response: 0 for a normal one (R92). -/
def Response.status : Response → BitVec 3
  | .done | .window _ | .scanned _ _ | .packets _ | .reading _ | .frame _ => 0
  | .err e => e.code

/-- `PKT_MAX = floor(C / 5)` (R7, D7). -/
def pktMax (c : Nat) : Nat := c / 5

/-- The 26-bit record of a packet: `kind[25] presence[24] data_type[23:16] distance_cm[15:0]` (R94). -/
def Packet.record : Packet → BitVec 26
  | .minimal pr d => 0#1 ++ BitVec.ofBool pr ++ 0#8 ++ d
  | .standard t d => 1#1 ++ 0#1 ++ t ++ d

/-- The packet that a 26-bit record stands for (R94). -/
def Packet.ofRecord (r : BitVec 26) : Packet :=
  if r.getLsbD 25 then .standard (r.extractLsb' 16 8) (r.extractLsb' 0 16)
  else .minimal (r.getLsbD 24) (r.extractLsb' 0 16)

/-- The packet is of the Minimal variant, the only one a rule produces (R27, R94). -/
def Packet.isMinimal : Packet → Bool
  | .minimal _ _ => true
  | .standard _ _ => false

/-- `LAST` as one valid bit and a record; with valid bit 0 the record is unspecified, so there is none (R95). -/
def lastRecord : Option Packet → Bool × Option (BitVec 26)
  | none => (false, none)
  | some p => (true, some p.record)

/-- The response port (R91, R92). A field is `none` where the operation does not drive it or the spec leaves it unspecified:
every field but `status` of an error response, and `rpkt` and `rfresh` without a Reading. -/
structure PortOut where
  status : BitVec 3
  wlen : Option Nat := none
  wdata : Option (List Byte) := none
  npkt : Option Nat := none
  pkt : Option (List (BitVec 26)) := none
  consumed : Option Nat := none
  rvalid : Option Bool := none
  rpkt : Option (BitVec 26) := none
  rfresh : Option Bool := none
  flen : Option Nat := none
  fdata : Option (List Byte) := none
  deriving DecidableEq, Repr

/-- A response on the port (R91, R92). -/
def Response.port : Response → PortOut
  | .done => { status := 0 }
  | .window w => { status := 0, wlen := some w.length, wdata := some w }
  | .scanned ps k =>
    { status := 0, npkt := some ps.length, pkt := some (ps.map Packet.record), consumed := some k }
  | .packets ps => { status := 0, npkt := some ps.length, pkt := some (ps.map Packet.record) }
  | .reading none => { status := 0, rvalid := some false }
  | .reading (some r) =>
    { status := 0, rvalid := some true, rpkt := some r.packet.record, rfresh := some r.fresh }
  | .frame bs => { status := 0, flen := some bs.length, fdata := some bs }
  | .err e => { status := e.code }

end Sys2Proof.Machine
end

