-- ==== Sys2Proof/Machine/Operands.lean ====
section
/-! DEFINITION. The operand forms: how 16-bit values are put together and taken apart (spec/30_encoding.md R88), how a packet is
decoded (spec/41_scanner.md R137) and how a command frame is built from its operands (spec/43_frame_encoder.md R170). -/

namespace Sys2Proof.Machine

/-- `distance_cm` of a minimal frame: `zext_16(lo) | (zext_16(hi) << 8)` (R88, R136). -/
def distance (lo hi : Byte) : Half := le16 lo hi

/-- `Decode(s, lo, hi)` (R137). -/
def decodePacket (s lo hi : Byte) : Packet := .minimal (presence s) (distance lo hi)

/-- The most parameter bytes BUILD_COMMAND takes, so that the length field does not wrap (R172). -/
def maxParams : Nat := 65533

/-- The frame of R170's pseudocode, with `n = 2 + P` in the length field. Nothing is escaped (R86), and the frame is a function
of the operands alone (R177). -/
def commandFrame (code : Half) (params : List Byte) : List Byte :=
  let n : Half := BitVec.ofNat 16 (2 + params.length)
  [0xFD, 0xFC, 0xFB, 0xFA] ++ [n.extractLsb' 0 8, n.extractLsb' 8 8] ++ [code.extractLsb' 0 8, code.extractLsb' 8 8]
    ++ params ++ [0x04, 0x03, 0x02, 0x01]

/-- BUILD_COMMAND: the frame, or `LengthRange` when the length field would wrap (R170, R172). -/
def buildCommand (code : Half) (params : List Byte) : Except Err (List Byte) :=
  if maxParams < params.length then .error (.lengthRange params.length) else .ok (commandFrame code params)

/-- The frame of the output-mode command (R173, R174). -/
def modeFrame (m : OutputMode) : List Byte := commandFrame switchOutputCode (modeParams m)

end Sys2Proof.Machine
end

