-- ==== Sys2Proof/Machine/Ops.lean ====
section
/-! DEFINITION. The shared operations: the ring cells, the FIFO in its ring form (spec/40_fifo_ops.md R111, R114, R116) with the
byte sequence it stands for (spec/10_state.md R23), the scan (spec/41_scanner.md R131), the draws from the environment
(spec/60_exceptions.md R198, R199), the responses and the error response (R191), and the reset event
(spec/70_reset_and_hazards.md R216). -/

namespace Sys2Proof.Machine

/-! ## Ring cells -/

/-- The value of a listed cell. -/
def Memory.read : Memory → Nat → Option Byte
  | [], _ => none
  | (k, b) :: m, a => if a = k then some b else Memory.read m a

/-- Write one cell, keeping the addresses strictly rising. -/
def Memory.write : Memory → Nat → Byte → Memory
  | [], a, v => [(a, v)]
  | (k, b) :: m, a, v =>
    if a < k then (a, v) :: (k, b) :: m
    else if a = k then (a, v) :: m
    else (k, b) :: Memory.write m a v

/-- The canonical form: addresses strictly rising, and every address one of the `c` cells of the ring. An unlisted address
has no value, so no entry can equal what it reads as. -/
def Memory.wf (c : Nat) : Memory → Bool
  | [] => true
  | [(k, _)] => k < c
  | (k, _) :: (k', b') :: m => k < k' && Memory.wf c ((k', b') :: m)

/-! ## The FIFO -/

/-- Cell `a` of the ring; a cell nothing has written since reset holds an unspecified byte, a free value (R34, U22). -/
def Fifo.cell (f : Fifo) (a : Nat) : Byte := (Memory.read f.mem a).getD (Config.freeCell a)

/-- The physical cell of logical index `k`: `(head + k) mod C` (R52). -/
def Fifo.place (c : Nat) (f : Fifo) (k : Nat) : Nat := (f.head + k) % c

/-- The abstraction function: `len(Q) = cnt` and `Q[k] = x[(head + k) mod C]` (R23, R51); also SNAPSHOT's copy (R116). -/
def Fifo.toList (c : Nat) (f : Fifo) : List Byte := (List.range f.cnt).map fun k => f.cell (f.place c k)

/-- APPEND on the ring (R111). On overflow the oldest byte is dropped, never the new one, and nothing records it: the policy of
R118, which can cut a frame in two (an eviction tear, R221). -/
def Fifo.append (c : Nat) (f : Fifo) (b : Byte) : Fifo :=
  if f.cnt = c then
    { mem := Memory.write f.mem f.head b, head := (f.head + 1) % c, cnt := f.cnt }
  else
    { mem := Memory.write f.mem (f.place c f.cnt) b, head := f.head, cnt := f.cnt + 1 }

/-- APPEND each byte of `bs`, in order of arrival (R54, R150 step 2, R97 `APPENDS`). -/
def Fifo.appendAll (c : Nat) (f : Fifo) (bs : List Byte) : Fifo := bs.foldl (Fifo.append c) f

/-- DRAIN on the ring, when `n <= cnt` (R114). -/
def Fifo.drain (c : Nat) (f : Fifo) (n : Nat) : Fifo := { mem := f.mem, head := (f.head + n) % c, cnt := f.cnt - n }

/-- The FIFO of a block just reset (R34): empty, `head = 0`, every cell unspecified. -/
def Fifo.empty : Fifo := { mem := [], head := 0, cnt := 0 }

/-- `Q`, the byte sequence the FIFO holds, oldest first (R20). -/
def State.q (s : State) : List Byte := s.fifo.toList s.cfg.capacity

/-- `Q` after the appends of `bs` to a FIFO of capacity `c` that holds `q`: the last `C` of all the bytes (R112). -/
def lastOf (c : Nat) (q bs : List Byte) : List Byte := (q ++ bs).drop (q.length + bs.length - c)

/-- The FIFO replaced. -/
def State.setFifo (s : State) (f : Fifo) : State := { s with fifo := f }

/-! ## The scan -/

/-- A scan of `w` about to begin: every scan sets its position to 0 (R24, R131). -/
def ScanRun.start (w : List Byte) : ScanRun := { window := w, pc := 0, out := [] }

/-- The remaining bytes `L - pc` (R131). -/
def ScanRun.remaining (r : ScanRun) : Nat := r.window.length - r.pc

/-- The window from the scan position on: what the next stream-level decode reads (R89). -/
def ScanRun.ahead (r : ScanRun) : List Byte := r.window.drop r.pc

/-- FRAME.MIN: one packet more, `pc <- pc + 5` (R132). The frame is believed on its first and fifth byte alone (R86, R222). -/
def ScanRun.frame (r : ScanRun) (state lo hi : Byte) : ScanRun :=
  { window := r.window, pc := r.pc + 5, out := r.out ++ [decodePacket state lo hi] }

/-- SKIP: `pc <- pc + 1` (R133). This is how the scanner recovers from noise and from an eviction tear (R90, R118, R138, R221):
the bytes left of a cut frame are passed over one at a time. -/
def ScanRun.skip (r : ScanRun) : ScanRun := { window := r.window, pc := r.pc + 1, out := r.out }

/-- One pass of the loop body of R131: the stream-level step that stands at the scan position. With fewer than five bytes
remaining nothing is decoded (R134). -/
def ScanRun.step (r : ScanRun) : ScanRun :=
  match decodeStream r.ahead with
  | .ok (.frameMin s lo hi) => r.frame s lo hi
  | .ok _ => r.skip
  | .error _ => r

/-- The loop of R131 with at most `n` passes, while at least five bytes remain and the scan position is below `limit`. -/
def ScanRun.runTo (limit : Nat) : Nat → ScanRun → ScanRun
  | 0, r => r
  | n + 1, r => if 5 ≤ r.remaining ∧ r.pc < limit then ScanRun.runTo limit n r.step else r

/-- The whole loop of R131: it ends after at most `L` passes. -/
def ScanRun.finish (r : ScanRun) : ScanRun := r.runTo r.window.length r.window.length

/-- `Scan(W)`: the packets, left to right (R142), and the consumed count (R131). -/
def scanWindow (w : List Byte) : List Packet × Nat := ((ScanRun.start w).finish.out, (ScanRun.start w).finish.pc)

/-! ## Responses and errors -/

/-- Give the host a response (R6). -/
def State.respond (s : State) (r : Response) : State := { s with responses := s.responses ++ [r] }

/-- `raise E(info)`: TAKING AN EXCEPTION, the one operation every error goes through. Control returns to the host with the
error response, "that is the whole of trap entry": no cause register, no saved position, no vector, no mode change (R191).
There is nothing to return from: the next operation is accepted from the unchanged state (R192). -/
def State.raise (s : State) (e : Err) : State := s.respond (.err e)

/-- `Ok(v)` or `raise E` from a computation that may fail. -/
def State.respondOrRaise {α : Type} (s : State) (ok : α → Response) : Except Err α → State
  | .ok v => s.respond (ok v)
  | .error e => s.raise e

/-- No operation is in progress: the block is ready for another (R6, R220). -/
def State.idle (s : State) : Bool := s.scan.isNone && !s.waiting

/-- The block executes one operation at a time; an operation issued while another is in progress has no meaning (R5, R220). -/
def State.whenIdle (s : State) (o : Host.Outcome State Fault Refusal) : Host.Outcome State Fault Refusal :=
  if s.idle then o else .refused .operationInProgress

/-! ## Draws from the environment -/

/-- A free read answer, cut to the bytes the contract allows (R198). -/
def boundedRead (max : Nat) : ReadAnswer → ReadAnswer
  | .data bs => .data (bs.take max)
  | .fail => .fail

/-- The environment once a read answer is drawn: "bytes it returns are removed from the transport" (R58). -/
def Env.afterRead (e : Env) : Env :=
  match e.reads with
  | _ :: rest => { e with reads := rest }
  | [] => { e with draws := e.draws + 1 }

/-- The environment once a write answer is drawn. -/
def Env.afterWrite (e : Env) : Env :=
  match e.writes with
  | _ :: rest => { e with writes := rest }
  | [] => { e with draws := e.draws + 1 }

/-- The environment once an `Expired()` answer is drawn. -/
def Env.afterExpired (e : Env) : Env :=
  match e.expired with
  | _ :: rest => { e with expired := rest }
  | [] => { e with draws := e.draws + 1 }

/-- The environment's next read answer (R198). -/
def State.readAnswer (s : State) : ReadAnswer :=
  match s.env.reads with
  | r :: _ => r
  | [] => boundedRead s.cfg.chunkMax (Config.freeRead s.env.draws)

/-- The state once that answer is drawn. -/
def State.afterRead (s : State) : State := { s with env := s.env.afterRead }

/-- The number of bytes of the next read answer. -/
def readSize : ReadAnswer → Nat
  | .data bs => bs.length
  | .fail => 0

/-- The listed answer that stands outside the contract: more than `CHUNK_MAX` bytes (R198, D20). -/
def State.readTooLong (s : State) : Bool :=
  match s.env.reads with
  | r :: _ => s.cfg.chunkMax < readSize r
  | [] => false

/-- `TransportRead(CHUNK_MAX)`, then `k` with the answer; no step where the answer is outside the contract (R198). -/
def State.withRead (s : State) (k : ReadAnswer → State → State) : Host.Outcome State Fault Refusal :=
  if s.readTooLong then .fault (.readAnswerTooLong s.cfg.chunkMax (readSize s.readAnswer))
  else .next (k s.readAnswer s.afterRead)

/-- The environment's next write answer (R199). -/
def State.writeAnswer (s : State) : WriteAnswer :=
  match s.env.writes with
  | r :: _ => r
  | [] => Config.freeWrite s.env.draws

/-- The state once `bs` has been handed to the transport and the answer drawn (R199). What of `bs` reached the device after a
`Fail` is not said (R187), so nothing is recorded of it. -/
def State.afterWrite (s : State) (bs : List Byte) : State :=
  { s with env := s.env.afterWrite, handed := s.handed ++ [bs] }

/-- The clock's next answer to `Expired()` (R159). -/
def State.expiredAnswer (s : State) : Bool :=
  match s.env.expired with
  | x :: _ => x
  | [] => Config.freeExpired s.env.draws

/-- The state once that answer is drawn. -/
def State.afterExpired (s : State) : State := { s with env := s.env.afterExpired }

/-- `TransportWrite(bs)` and its response: `Ok`, or `TransportWriteFailure` (R174, R187). Its only caller is SEND_MODE (R199). -/
def State.send (s : State) (bs : List Byte) : State :=
  match s.writeAnswer with
  | .done => (s.afterWrite bs).respond .done
  | .fail => (s.afterWrite bs).raise .transportWriteFailure

/-! ## Reset -/

/-- The reset event with a transport handle and a `MAX_WAIT` (R215, R216): `Q` empty, `LAST = None`, cells unspecified. The
transport's pending answers stay, nothing is sent, and no response is given. -/
def State.resetEvent (s : State) (handle maxWait : Nat) : State :=
  { s with
    cfg := { s.cfg with handle := handle, maxWait := maxWait }
    fifo := Fifo.empty
    last := none
    scan := none
    waiting := false }

end Sys2Proof.Machine
end

