-- ==== Sys2Proof/Machine/Encoder.lean ====
section
/-! DEFINITION. The frame encoder: BUILD_COMMAND and SEND_MODE, and the command frames they emit (spec/43_frame_encoder.md). -/

namespace Sys2Proof.Machine

/-- BUILD_COMMAND `code`, `params` (R170, R172): the frame is the response; nothing is sent and no state is written. -/
def execBuildCommand (code : Half) (params : List Byte) (s : State) : Host.Outcome State Fault Refusal :=
  s.whenIdle (.next (s.respondOrRaise .frame (buildCommand code params)))

/-- SEND_MODE `mode` (R174): the output-mode command is handed to the transport, and no other instruction hands it anything
(R199). No reply is read or checked (R176), and nothing is flushed (R226). -/
def execSendMode (mode : OutputMode) (s : State) : Host.Outcome State Fault Refusal :=
  s.whenIdle (.next (s.send (modeFrame mode)))

/-- CMD: the emission of the command frame of `code` and `params`, the output of BUILD_COMMAND (R82, R170). There is no such
frame of more than 65533 parameters (R172). -/
def execCmd (code : Half) (params : List Byte) (s : State) : Host.Outcome State Fault Refusal :=
  s.whenIdle (.next (s.respondOrRaise .frame (buildCommand code params)))

/-- CMD.SETMIN: the emission of R83's first frame, the output of BUILD_COMMAND (R170, R174). Nothing is handed to the
transport: SEND_MODE alone does that (R199). That the row is a step of its own is the model's choice (assumption 9). -/
def execCmdSetMin (s : State) : Host.Outcome State Fault Refusal := s.whenIdle (.next (s.respond (.frame setMinFrame)))

/-- CMD.SETSTD: the emission of R83's second frame, as CMD.SETMIN's (assumption 9). -/
def execCmdSetStd (s : State) : Host.Outcome State Fault Refusal := s.whenIdle (.next (s.respond (.frame setStdFrame)))

end Sys2Proof.Machine
end

