-- ==== Sys2Proof/Machine/Fifo.lean ====
section
/-! DEFINITION. The FIFO operations APPEND, DRAIN and SNAPSHOT (spec/40_fifo_ops.md). -/

namespace Sys2Proof.Machine

/-- APPEND `b` (R110, R111). It cannot fail, and an eviction is not reported. -/
def execAppend (b : Byte) (s : State) : Host.Outcome State Fault Refusal :=
  s.whenIdle (.next ((s.setFifo (s.fifo.append s.cfg.capacity b)).respond .done))

/-- DRAIN `n` (R113, R114): `DrainRange` when more bytes are asked for than are held, and then nothing is removed. -/
def execDrain (n : Nat) (s : State) : Host.Outcome State Fault Refusal :=
  s.whenIdle (.next
    (if s.fifo.cnt < n then s.raise (.drainRange n s.fifo.cnt)
     else (s.setFifo (s.fifo.drain s.cfg.capacity n)).respond .done))

/-- SNAPSHOT (R115, R116): a copy of the whole FIFO content, oldest byte first. -/
def execSnapshot (s : State) : Host.Outcome State Fault Refusal :=
  s.whenIdle (.next (s.respond (.window s.q)))

end Sys2Proof.Machine
end

