-- ==== Sys2Proof/Machine/Poll.lean ====
section
/-! DEFINITION. The polling and caching engine: POLL and READ_LATEST (spec/42_poll_engine.md). -/

namespace Sys2Proof.Machine

/-- The FIFO after step 2 of R150: every byte read appended in arrival order, with eviction. -/
def State.polledFifo (s : State) (bs : List Byte) : Fifo := s.fifo.appendAll s.cfg.capacity bs

/-- Step 3 of R150: the scan of a snapshot taken after the appends. -/
def State.pollScan (s : State) (bs : List Byte) : List Packet × Nat :=
  scanWindow ((s.polledFifo bs).toList s.cfg.capacity)

/-- The packets POLL returns, oldest first (R150 step 6). -/
def State.pollPackets (s : State) (bs : List Byte) : List Packet := (s.pollScan bs).1

/-- The cache update: the newest packet of a non-empty batch, and nothing otherwise (R150 step 5, R152). -/
def newestOr (batch : List Packet) (last : Option Packet) : Option Packet :=
  match batch.getLast? with
  | some p => some p
  | none => last

/-- The state after steps 2 to 5 of R150 for the bytes `bs` read. -/
def State.polled (s : State) (bs : List Byte) : State :=
  { s with
    fifo := (s.polledFifo bs).drain s.cfg.capacity (s.pollScan bs).2
    last := newestOr (s.pollPackets bs) s.last }

/-- POLL once the transport has answered: a failure ends it at step 1 with nothing changed (R151). -/
def State.pollAnswered (a : ReadAnswer) (s : State) : State :=
  match a with
  | .fail => s.raise .transportReadFailure
  | .data bs => (s.polled bs).respond (.packets (s.pollPackets bs))

/-- POLL (R150). Bytes come from the transport here and in READ_LATEST only (R223). -/
def execPoll (s : State) : Host.Outcome State Fault Refusal := s.whenIdle (s.withRead State.pollAnswered)

/-- READ_LATEST in progress or not. -/
def State.setWaiting (s : State) (w : Bool) : State := { s with waiting := w }

/-- The time check of READ_LATEST after a POLL that decoded nothing (R158): with the budget used up the cached packet is
returned stale, or no Reading if none was ever cached; otherwise `Pause()`, which has no effect on any state, and the
loop goes on. -/
def State.timeCheck (s : State) : State :=
  if s.expiredAnswer then
    (s.afterExpired.setWaiting false).respond (.reading (s.last.map fun p => { packet := p, fresh := false }))
  else s.afterExpired.setWaiting true

/-- One iteration of R158's loop once the transport has answered. A packet decoded wins over the time check; the newest one is
returned fresh (R160, R161). -/
def State.latestAnswered (a : ReadAnswer) (s : State) : State :=
  match a with
  | .fail => (s.setWaiting false).raise .transportReadFailure
  | .data bs =>
    match (s.pollPackets bs).getLast? with
    | some p => ((s.polled bs).setWaiting false).respond (.reading (some { packet := p, fresh := true }))
    | none => (s.polled bs).timeCheck

/-- One iteration of R158's loop. READ_LATEST is the loop of such steps (R163, assumption 6). -/
def State.latestIteration (s : State) : Host.Outcome State Fault Refusal := s.withRead State.latestAnswered

/-- READ_LATEST (R158): its first iteration. While `waiting` holds, `step` goes on with the next one. -/
def execReadLatest (s : State) : Host.Outcome State Fault Refusal := s.whenIdle s.latestIteration

end Sys2Proof.Machine
end

