-- ==== Sys2Proof/Machine/Reserved.lean ====
section
/-! DEFINITION. The reserved select codes (spec/30_encoding.md R93, spec/60_exceptions.md R189). -/

namespace Sys2Proof.Machine

/-- Select code 0: `IllegalOp`, no state change (R93, R189). -/
def execReserved0 (s : State) : Host.Outcome State Fault Refusal := s.whenIdle (.next (s.raise .illegalOp))

/-- Select codes 9 to 15: `IllegalOp`, no state change, whatever the code (R93, R189). -/
def execReserved9F (_op : BitVec 4) (s : State) : Host.Outcome State Fault Refusal :=
  s.whenIdle (.next (s.raise .illegalOp))

end Sys2Proof.Machine
end

