-- ==== Sys2Proof/Machine/Scanner.lean ====
section
/-! DEFINITION. The Frame Scanner: the host operation SCAN and the stream-level rows FRAME.MIN, SKIP and FRAME.STD
(spec/41_scanner.md). -/

namespace Sys2Proof.Machine

/-- The scan in progress replaced. -/
def State.setScan (s : State) (r : Option ScanRun) : State := { s with scan := r }

/-- The end of a scan run: the packets and the consumed count are the response, and the run is forgotten (R134, R140, R25). -/
def State.closeScan (s : State) (r : ScanRun) : State := (s.setScan none).respond (.scanned r.out r.pc)

/-- A stream-level row `f` whose bytes are `bytes`. In a scan in progress it is one step of that scan, which needs five bytes
remaining (R132, R133). With no operation in progress it is the scan of the window that holds its own bytes (R130,
assumption 8).

DESIGN CHOICE (assumption 24): the instruction's own bytes are taken, and the window's bytes at the scan position are not
compared with them; R132 and R133 say nothing of a row that does not stand there. `step` decodes the row from the window, so
there the two are the same. -/
def State.streamStep (s : State) (bytes : List Byte) (f : ScanRun → ScanRun) : Host.Outcome State Fault Refusal :=
  match s.scan with
  | some r => if r.remaining < 5 then .refused .fewerThanFiveBytes else .next (s.setScan (some (f r)))
  | none => s.whenIdle (.next (s.closeScan (f (ScanRun.start bytes))))

/-- SCAN (R140): run the scanner over a fresh snapshot. No state is written. -/
def execScan (s : State) : Host.Outcome State Fault Refusal :=
  s.whenIdle (.next (s.respond (.scanned (scanWindow s.q).1 (scanWindow s.q).2)))

/-- FRAME.MIN (R132). -/
def execFrameMin (state lo hi : Byte) (s : State) : Host.Outcome State Fault Refusal :=
  s.streamStep [minHeader, state, lo, hi, minTrailer] (fun r => r.frame state lo hi)

/-- SKIP (R133): one byte is passed over; the four after it are tried again. -/
def execSkip (b0 b1 b2 b3 b4 : Byte) (s : State) : Host.Outcome State Fault Refusal :=
  s.streamStep [b0, b1, b2, b3, b4] ScanRun.skip

/-- FRAME.STD (R84, R145): no rule decodes a standard frame; its bytes go through FRAME.MIN and SKIP like any others. In a
scan in progress whose position stands at the frame, those steps are taken until the position has passed the frame's
`10 + N` bytes or fewer than five bytes remain. With no operation in progress the window is what a FIFO holds to which the
frame's bytes came alone: the whole frame, or its last `C` bytes when it is longer (R110, R112), so that `L <= C` (R131, R8).

DESIGN CHOICE (assumption 10): that the row alone is a scan at all, and of that window. In a scan the window's bytes are
taken, and that the frame stands at the position is not tested. -/
def execFrameStd (payload : List Byte) (s : State) : Host.Outcome State Fault Refusal :=
  match s.scan with
  | some r => .next (s.setScan (some (r.runTo (r.pc + (10 + payload.length)) (10 + payload.length))))
  | none =>
    s.whenIdle (.next (s.closeScan (ScanRun.start (lastOf s.cfg.capacity [] (encodeStdFrame payload))).finish))

end Sys2Proof.Machine
end

