-- ==== Sys2Proof/Machine/Dispatch.lean ====
section
/-! DEFINITION. The meaning of every row of spec/opcode_table.json, one arm each. -/

namespace Sys2Proof.Machine

def exec (i : Instr) (s : State) : Host.Outcome State Fault Refusal :=
  match i with
  | .append b => Sys2Proof.Machine.execAppend b s
  | .drain n => Sys2Proof.Machine.execDrain n s
  | .snapshot => Sys2Proof.Machine.execSnapshot s
  | .scan => Sys2Proof.Machine.execScan s
  | .poll => Sys2Proof.Machine.execPoll s
  | .readLatest => Sys2Proof.Machine.execReadLatest s
  | .buildCommand code params => Sys2Proof.Machine.execBuildCommand code params s
  | .sendMode mode => Sys2Proof.Machine.execSendMode mode s
  | .reserved0 => Sys2Proof.Machine.execReserved0 s
  | .reserved9F op => Sys2Proof.Machine.execReserved9F op s
  | .frameMin state lo hi => Sys2Proof.Machine.execFrameMin state lo hi s
  | .skip b0 b1 b2 b3 b4 => Sys2Proof.Machine.execSkip b0 b1 b2 b3 b4 s
  | .cmd code params => Sys2Proof.Machine.execCmd code params s
  | .cmdSetMin => Sys2Proof.Machine.execCmdSetMin s
  | .cmdSetStd => Sys2Proof.Machine.execCmdSetStd s
  | .frameStd payload => Sys2Proof.Machine.execFrameStd payload s

end Sys2Proof.Machine
end

