-- ==== Sys2Proof/Machine/Fetch.lean ====
section
/-! DEFINITION. What the block does next: go on with the operation in progress, or take the host's next move (spec/00_scope.md R5,
R6; spec/70_reset_and_hazards.md R220, R229), how what is presented to it is run, and where the table's bits of one instruction
are placed so that it is next. -/

namespace Sys2Proof.Machine

/-- What comes next. -/
inductive Fetched where
  /-- READ_LATEST is waiting: another iteration of its loop (R158). -/
  | iterate
  /-- The scan in progress has fewer than five bytes left: it ends (R134). -/
  | finish (r : ScanRun)
  /-- An instruction, and the state once the host's move has been taken. -/
  | instr (e : Encoded) (s : State)
  /-- The reset event, and the state once the host's move has been taken (R215). -/
  | reset (handle maxWait : Nat) (s : State)
  /-- No operation has been issued: the block waits (R34). -/
  | idle
  deriving DecidableEq, Repr

/-- The host's moves replaced. -/
def State.setHost (s : State) (h : List Request) : State := { s with host := h }

/-- The host's next move, taken between operations only (R220, R215). -/
def State.nextMove (s : State) : Fetched :=
  match s.host with
  | [] => .idle
  | .op p :: rest => .instr (.port p) (s.setHost rest)
  | .frame bs :: rest => .instr (.frame bs) (s.setHost rest)
  | .reset handle maxWait :: rest => .reset handle maxWait (s.setHost rest)

/-- What the block does next. -/
def State.fetch (s : State) : Fetched :=
  if s.waiting then .iterate
  else
    match s.scan with
    | some r => if r.remaining < 5 then .finish r else .instr (.stream r.ahead) s
    | none => s.nextMove

/-- Run what is presented: the decoded instruction, or a refusal that names why it decodes to none. -/
def State.runEncoded (s : State) (e : Encoded) : Host.Outcome State Fault Refusal :=
  match decode s.cfg.capacity e with
  | .ok i => exec i s
  | .error r => .refused (.undecodable r)

/-- The state with the encoded instruction `e` placed where `fetch` takes the next one: in the window of a scan that begins,
or at the front of the host's moves. No operation is in progress, so that it is really next. -/
def State.place (s : State) : Encoded → State
  | .stream bs => { s with waiting := false, scan := some (ScanRun.start bs) }
  | .port p => { s with waiting := false, scan := none, host := .op p :: s.host }
  | .frame bs => { s with waiting := false, scan := none, host := .frame bs :: s.host }

end Sys2Proof.Machine
end

