-- ==== Sys2Proof/Machine/Step.lean ====
section
/-! DEFINITION. One step of the machine: one operation of the host, one stream-level step of a scan in progress, or one
iteration of a waiting READ_LATEST. -/

namespace Sys2Proof.Machine

/-- One step. With nothing issued the block waits, and nothing changes (R34, R6). -/
def step (s : State) : Host.Outcome State Fault Refusal :=
  match s.fetch with
  | .iterate => s.latestIteration
  | .finish r => .next (s.closeScan r)
  | .instr e s' => s'.runEncoded e
  | .reset handle maxWait s' => .next (s'.resetEvent handle maxWait)
  | .idle => .next s

/-- `s` with the table's `nbits` bits `w` placed so that the very next step runs exactly that instruction (assumptions 5, 11). -/
def State.withFetchWord (s : State) (nbits w : Nat) : State := s.place (encodedOfTable nbits w)

end Sys2Proof.Machine
end

