-- ==== Sys2Proof/Machine/Script.lean ====
section
/-! DEFINITION. The script of spec/30_encoding.md R96 as host moves, and the pseudo-operations of R97. -/

namespace Sys2Proof.Machine

/-- `APPEND b` (R91, R96). -/
def issueAppend (b : Byte) : Request := .op { selectPort 1 with din := b }

/-- `DRAIN n` (R91, R96). -/
def issueDrain (n : Nat) : Request := .op { selectPort 2 with n := n }

/-- `SCAN` (R91, R96). -/
def issueScan : Request := .op (selectPort 4)

/-- `POLL` (R91, R96). -/
def issuePoll : Request := .op (selectPort 5)

/-- `APPENDS b0 b1 ... bn` (R97). -/
def appends (bs : List Byte) : List Request := bs.map issueAppend

/-- `FILL b, m` (R97). -/
def fill (b : Byte) (m : Nat) : List Request := List.replicate m (issueAppend b)

/-- `SCANDRAIN`: SCAN, then DRAIN of the consumed count it returned (R97), for a FIFO that holds `w` when SCAN is issued. -/
def scanDrain (w : List Byte) : List Request := [issueScan, issueDrain (scanWindow w).2]

end Sys2Proof.Machine
end

