-- ==== Sys2Proof/Safety.lean ====
section
/-! DEFINITION. What holds of every state a run reaches (`State.Inv`), and the relations the statements use. -/

namespace Sys2Proof.Machine

/-- A scan in progress in a block of capacity `c`: its position never passes the end of the window (R24), the window is at
most a whole FIFO (R50), each packet took five bytes (R139), and only Minimal packets were decoded (R137). -/
structure ScanRun.Inv (c : Nat) (r : ScanRun) : Prop where
  window_le : r.window.length ≤ c
  pc_le : r.pc ≤ r.window.length
  out_le : 5 * r.out.length ≤ r.pc
  minimal : ∀ p ∈ r.out, p.isMinimal = true

/-- The ring in a block of capacity `c` (R21, R22, R23). -/
structure Fifo.Inv (c : Nat) (f : Fifo) : Prop where
  head_lt : f.head < c
  cnt_le : f.cnt ≤ c
  mem_wf : Memory.wf c f.mem = true
  /-- Every cell that holds a byte of `Q` has been written, so no free value is ever read (R23). -/
  live : ∀ k < f.cnt, (Memory.read f.mem (f.place c k)).isSome = true

/-- The packets a response carries. -/
def Response.carried : Response → List Packet
  | .scanned ps _ | .packets ps => ps
  | .reading (some r) => [r.packet]
  | .done | .window _ | .reading none | .frame _ | .err _ => []

/-- The invariant of the machine. -/
structure State.Inv (s : State) : Prop where
  /-- R8. -/
  capacity : 5 ≤ s.cfg.capacity
  /-- R7. -/
  chunkMax : 1 ≤ s.cfg.chunkMax
  fifo : s.fifo.Inv s.cfg.capacity
  /-- No Standard packet is ever cached (R27, R152). -/
  last : ∀ p, s.last = some p → p.isMinimal = true
  scan : ∀ r, s.scan = some r → r.Inv s.cfg.capacity
  /-- At most one operation is in progress (R5). -/
  one : s.waiting = true → s.scan = none
  /-- No Standard packet is ever returned (R94). -/
  responses : ∀ a ∈ s.responses, ∀ p ∈ a.carried, p.isMinimal = true

/-- `n` steps, stopping at the first fault or refusal: the host interface's own run. -/
def run (n : Nat) (s : State) : Host.Outcome State Fault Refusal := Host.Core.run Sys2Proof.core n s

/-- The next read answer is within the transport's contract (R198). -/
def State.ReadInContract (s : State) : Prop := s.readTooLong = false

/-- The next step is an iteration of READ_LATEST: one is waiting, or the host's next move issues one (R158). -/
def State.AtReadLatest (s : State) : Prop :=
  s.waiting = true ∨ (s.idle = true ∧ ∃ p rest, s.host = .op p :: rest ∧ p.op = 6)

/-- Two states that differ at most in how the ring holds `Q` (R20, R32): same `Q`, and every other field equal. -/
structure SameQ (s t : State) : Prop where
  cfg : s.cfg = t.cfg
  q : s.q = t.q
  last : s.last = t.last
  scan : s.scan = t.scan
  waiting : s.waiting = t.waiting
  env : s.env = t.env
  host : s.host = t.host
  handed : s.handed = t.handed
  responses : s.responses = t.responses

/-- The five stream bytes of a minimal frame (R80). -/
def minimalFrame (state lo hi : Byte) : List Byte := [minHeader, state, lo, hi, minTrailer]

/-- Feed `pieces` to the FIFO `f` of a block of capacity `c`, with a scan of the whole FIFO and a drain of its consumed count
after each piece (R143): the packets of all the scans joined in order, and the FIFO at the end. -/
def feed (c : Nat) : Fifo → List (List Byte) → List Packet × Fifo
  | f, [] => ([], f)
  | f, p :: ps =>
    let g := f.appendAll c p
    let r := scanWindow (g.toList c)
    let rest := feed c (g.drain c r.2) ps
    (r.1 ++ rest.1, rest.2)

/-- No APPEND of that feeding evicts a byte (R143). -/
def feedsWhole (c : Nat) : Fifo → List (List Byte) → Bool
  | _, [] => true
  | f, p :: ps =>
    let g := f.appendAll c p
    f.cnt + p.length ≤ c && feedsWhole c (g.drain c (scanWindow (g.toList c)).2) ps

/-- The block's own state is the same in `s` and `t`. -/
structure SameBlock (s t : State) : Prop where
  cfg : t.cfg = s.cfg
  fifo : t.fifo = s.fifo
  last : t.last = s.last
  scan : t.scan = s.scan
  waiting : t.waiting = s.waiting

/-- The environment's answers, the host's moves and what was handed to the transport are the same in `s` and `t`. -/
structure SameWorld (s t : State) : Prop where
  env : t.env = s.env
  host : t.host = s.host
  handed : t.handed = s.handed

/-- Nothing but the FIFO and the response differs: the frame of APPEND and DRAIN. -/
structure OnlyFifo (s t : State) : Prop where
  cfg : t.cfg = s.cfg
  last : t.last = s.last
  scan : t.scan = s.scan
  waiting : t.waiting = s.waiting
  world : SameWorld s t

/-- Every ring cell reads in `t` as in `s`, but for the cells that `n` appended bytes go to: the one after the tail of `s` and
the `n - 1` that follow it round the ring (R111). -/
def CellsKept (s t : State) (n : Nat) : Prop :=
  ∀ a, (∀ j < n, a ≠ (s.fifo.head + s.fifo.cnt + j) % s.cfg.capacity) →
    Memory.read t.fifo.mem a = Memory.read s.fifo.mem a

/-- The outcomes of two machines agree: next states related by `SameQ`, or the same stop. -/
def SameOutcome : Host.Outcome State Fault Refusal → Host.Outcome State Fault Refusal → Prop
  | .next s, .next t => SameQ s t
  | .fault a, .fault b => a = b
  | .refused a, .refused b => a = b
  | .next _, .fault _ | .next _, .refused _ | .fault _, .next _ | .fault _, .refused _ | .refused _, .next _
  | .refused _, .fault _ => False

end Sys2Proof.Machine
end

