-- ==== Sys2Proof/WellFormed.lean ====
section
/-! DEFINITION. Which terms of `Instr` are instructions of the block: each operand within what its field carries, and each
row's own select codes or byte values (spec/30_encoding.md R89, R91, R93). -/

namespace Sys2Proof

/-- What is wrong with an ill-formed term. -/
inductive IllFormed where
  /-- DRAIN's operand is wider than its port (R91). -/
  | countTooWide
  /-- More parameter bytes than `plen[15:0]` counts (R91). -/
  | paramsTooLong
  /-- RESERVED.9_F with a select code that is not reserved (R93). -/
  | notReserved
  /-- SKIP with five bytes that are a minimal frame (R89: "anything else"). -/
  | skipOfFrame
  /-- A CMD frame whose length field would wrap (R172). -/
  | lengthFieldWraps
  /-- A CMD frame that is one of the two frames of R83, which are rows of their own. -/
  | modeFrame
  /-- A FRAME.STD payload longer than its 16-bit length field counts (R84). -/
  | payloadTooLong
  deriving DecidableEq, Repr

/-- The check of one instruction for a block of capacity `c`: `none` if it is well formed. -/
def Instr.check (c : Nat) : Instr → Option IllFormed
  | .append _ | .snapshot | .scan | .poll | .readLatest | .sendMode _ | .reserved0 | .frameMin _ _ _ | .cmdSetMin
  | .cmdSetStd => none
  | .drain n => if n < 2 ^ countWidth c then none else some .countTooWide
  | .buildCommand _ params => if params.length < 65536 then none else some .paramsTooLong
  | .reserved9F op => if 9 ≤ op.toNat then none else some .notReserved
  | .skip b0 _ _ _ b4 => if b0 = minHeader ∧ b4 = minTrailer then some .skipOfFrame else none
  | .cmd code params =>
    if 65533 < params.length then some .lengthFieldWraps
    else if code = switchOutputCode ∧ (params = modeParams .minimal ∨ params = modeParams .standard) then some .modeFrame
    else none
  | .frameStd payload => if payload.length < 65536 then none else some .payloadTooLong

/-- `i` is an instruction of a block of capacity `c`. -/
abbrev WellFormed (c : Nat) (i : Instr) : Prop := i.check c = none

end Sys2Proof
end

