-- ==== Sys2Proof/Certificates/Slice0/Obligations.lean ====
section
/-! DEFINITION. The statements about the machine, in the order of OBLIGATIONS.json. Each docstring names the rules of spec/ it
formalises. -/

open Sys2Proof Sys2Proof.Machine

/-! ## Reset, the step, the invariant -/

/-- R34, R216: the state after reset. -/
def Obligations.ResetLeavesEmptyFifoAndNoPacket : Prop :=
  State.reset.q = [] ∧ State.reset.fifo.cnt = 0 ∧ State.reset.fifo.head = 0 ∧ State.reset.last = none ∧
  State.reset.scan = none ∧ State.reset.waiting = false ∧ State.reset.cfg.capacity = 1024 ∧
  1 ≤ State.reset.cfg.chunkMax

/-- The invariant holds at reset. -/
def Obligations.InvariantHoldsAtReset : Prop := State.reset.Inv

/-- Every step keeps the invariant. -/
def Obligations.StepKeepsInvariant : Prop :=
  ∀ s t : State, s.Inv → step s = .next t → t.Inv

/-- R34, R215, R216: the reset event, taken between operations (assumption 19). `head = 0` is assumption 4, and that the
responses and the bytes handed over stay as they are is assumption 14. -/
def Obligations.ResetEventEmptiesFifoAndCache : Prop :=
  ∀ (s : State) (handle maxWait : Nat) (rest : List Request),
    s.idle = true → s.host = .reset handle maxWait :: rest →
    ∃ t, step s = .next t ∧ t.q = [] ∧ t.last = none ∧ t.fifo.head = 0 ∧ t.fifo.cnt = 0 ∧
      t.cfg.capacity = s.cfg.capacity ∧ t.cfg.chunkMax = s.cfg.chunkMax ∧ t.cfg.retryDelay = s.cfg.retryDelay ∧
      t.cfg.handle = handle ∧ t.cfg.maxWait = maxWait ∧ t.idle = true ∧
      t.env = s.env ∧ t.handed = s.handed ∧ t.responses = s.responses ∧ t.host = rest

/-- A step runs the decoded instruction: the host's operation with its move taken, a frame item likewise, or the stream-level
decode that stands at the scan position. With nothing issued the block waits and nothing changes, and a waiting READ_LATEST
goes on as if issued anew. -/
def Obligations.StepRunsDecodedInstruction : Prop :=
  ∀ (s : State) (i : Instr),
    (∀ p rest, s.idle = true → s.host = .op p :: rest → decode s.cfg.capacity (.port p) = .ok i →
      step s = exec i { s with host := rest }) ∧
    (∀ bs rest, s.idle = true → s.host = .frame bs :: rest → decode s.cfg.capacity (.frame bs) = .ok i →
      step s = exec i { s with host := rest }) ∧
    (∀ r, s.waiting = false → s.scan = some r → 5 ≤ r.window.length - r.pc →
      decode s.cfg.capacity (.stream (r.window.drop r.pc)) = .ok i → step s = exec i s) ∧
    (s.idle = true → s.host = [] → step s = .next s) ∧
    (s.waiting = true → s.scan = none → step s = exec .readLatest { s with waiting := false })

/-- R220, R224: while an operation is in progress no host operation has a meaning, and no step takes a host move. -/
def Obligations.OverlappingOperationsHaveNoStep : Prop :=
  (∀ (s : State) (i : Instr) (p : PortIn), s.idle = false → decode s.cfg.capacity (.port p) = .ok i →
    exec i s = .refused .operationInProgress) ∧
  (∀ s t : State, s.idle = false → step s = .next t → t.host = s.host)

/-- R6, R229: one response per operation. A step gives at most one response, and after it the block is ready for another
operation; a host operation that is taken answers at once, but for READ_LATEST, which may go on waiting. -/
def Obligations.EveryOperationAnswersOnce : Prop :=
  ∀ s t : State, s.Inv → step s = .next t →
    (t.responses = s.responses ∨ ∃ a, t.responses = s.responses ++ [a] ∧ t.idle = true) ∧
    (∀ p rest, s.idle = true → s.host = .op p :: rest → t.host = rest ∧
      ((∃ a, t.responses = s.responses ++ [a] ∧ t.idle = true) ∨
        (p.op = 6 ∧ t.waiting = true ∧ t.responses = s.responses)))

/-! ## Encoding -/

/-- Decode of encode is the instruction, for every well-formed instruction. -/
def Obligations.DecodeEncodeRoundTrip : Prop :=
  ∀ (c : Nat) (i : Instr), WellFormed c i → decode c (encode i) = .ok i

/-- What the decoder accepts is well formed. -/
def Obligations.DecodedInstructionsAreWellFormed : Prop :=
  ∀ (c : Nat) (e : Encoded) (i : Instr), decode c e = .ok i → WellFormed c i

/-- Words written out from R91, R80, R82, R84. -/
def Obligations.SpecWordsDecode : Prop :=
  decode 1024 (.port { op := 0x1, din := 0x6E, n := 0, code := 0, plen := 0, params := [], mode := 0 })
    = .ok (.append 0x6E) ∧
  decode 1024 (.port { op := 0x2, din := 0, n := 0x7FF, code := 0, plen := 0, params := [], mode := 0 })
    = .ok (.drain 2047) ∧
  decode 1024 (.port { op := 0x8, din := 0, n := 0, code := 0, plen := 0, params := [], mode := 1 })
    = .ok (.sendMode .standard) ∧
  decode 1024 (.stream [0x6E, 0x02, 0x05, 0x00, 0x62]) = .ok (.frameMin 0x02 0x05 0x00) ∧
  decode 1024 (.stream [0x6E, 0x02, 0x05, 0x00, 0x63]) = .ok (.skip 0x6E 0x02 0x05 0x00 0x63) ∧
  decode 1024 (.frame [0xFD, 0xFC, 0xFB, 0xFA, 0x03, 0x00, 0x34, 0x12, 0xAB, 0x04, 0x03, 0x02, 0x01])
    = .ok (.cmd 0x1234 [0xAB]) ∧
  decode 1024 (.frame [0xF4, 0xF3, 0xF2, 0xF1, 0x02, 0x00, 0x6E, 0x00, 0xF8, 0xF7, 0xF6, 0xF5])
    = .ok (.frameStd [0x6E, 0x00])

/-- R89: FRAME.MIN exactly when the masked 40-bit value matches, SKIP for every other value, and nothing with fewer than five
bytes remaining. -/
def Obligations.StreamDecodeFollowsMaskAndMatch : Prop :=
  (∀ (c : Nat) (b0 b1 b2 b3 b4 : Byte) (rest : List Byte),
    decode c (.stream (b0 :: b1 :: b2 :: b3 :: b4 :: rest)) =
      .ok (if (b0 ++ b1 ++ b2 ++ b3 ++ b4 : BitVec 40) &&& 0xFF000000FF#40 = 0x6E00000062#40
        then .frameMin b1 b2 b3 else .skip b0 b1 b2 b3 b4)) ∧
  (∀ (c : Nat) (w : List Byte), w.length < 5 → decode c (.stream w) = .error .fewerThanFive)

/-- R94: the record of a packet has the fields where the layout says, and stands for that packet alone. -/
def Obligations.PacketRecordLayout : Prop :=
  (∀ (pr : Bool) (d : Half), (Packet.minimal pr d).record.toNat = (if pr then 2 ^ 24 else 0) + d.toNat) ∧
  (∀ (t : Byte) (d : Half), (Packet.standard t d).record.toNat = 2 ^ 25 + t.toNat * 2 ^ 16 + d.toNat) ∧
  (∀ p : Packet, Packet.ofRecord p.record = p)

/-- R185, R92: the status codes; 0 for a normal response and only for one. -/
def Obligations.StatusCodesOfResponses : Prop :=
  Err.transportReadFailure.code = 1 ∧ Err.transportWriteFailure.code = 2 ∧ (∀ n len, (Err.drainRange n len).code = 3) ∧
  Err.illegalOp.code = 4 ∧ (∀ p, (Err.lengthRange p).code = 5) ∧
  (∀ r : Response, r.status = 0 ↔ ∀ e, r ≠ .err e)

/-- R7, R8, R92, R141: every count a response carries is in its range and fits its port, whatever instruction runs and
whatever step is taken, from every state that meets the invariant. -/
def Obligations.ResponseCountsFitTheirPorts : Prop :=
  ∀ (s t : State) (a : Response), s.Inv → ((∃ i, exec i s = .next t) ∨ step s = .next t) →
    t.responses = s.responses ++ [a] →
    (∀ n, a.port.wlen = some n → n ≤ s.cfg.capacity ∧ n < 2 ^ countWidth s.cfg.capacity) ∧
    (∀ k, a.port.consumed = some k → k ≤ s.cfg.capacity ∧ k < 2 ^ countWidth s.cfg.capacity) ∧
    (∀ n, a.port.npkt = some n → n ≤ pktMax s.cfg.capacity ∧ n < 2 ^ countWidth (pktMax s.cfg.capacity)) ∧
    (∀ n, a.port.flen = some n → 12 ≤ n ∧ n ≤ 65545)

/-! ## The FIFO -/

/-- R110: APPEND, with its select code. -/
def Obligations.AppendPutsByteAtTail : Prop :=
  ∀ (s : State) (b : Byte), s.Inv → s.idle = true →
    (∀ p : PortIn, p.op = 1 → decode s.cfg.capacity (.port p) = .ok (.append p.din)) ∧
    ∃ t, exec (.append b) s = .next t ∧
      t.q = (if s.q.length = s.cfg.capacity then s.q.drop 1 ++ [b] else s.q ++ [b]) ∧
      t.q.length ≤ s.cfg.capacity ∧
      t.responses = s.responses ++ [.done] ∧ OnlyFifo s t

/-- R111: the cell written, the head and the counter; every other cell reads as before. -/
def Obligations.AppendOnTheRing : Prop :=
  ∀ (s : State) (b : Byte), s.idle = true →
    ∃ t a, exec (.append b) s = .next t ∧
      a = (if s.fifo.cnt = s.cfg.capacity then s.fifo.head else (s.fifo.head + s.fifo.cnt) % s.cfg.capacity) ∧
      Memory.read t.fifo.mem a = some b ∧
      (∀ a', a' ≠ a → Memory.read t.fifo.mem a' = Memory.read s.fifo.mem a') ∧
      t.fifo.head = (if s.fifo.cnt = s.cfg.capacity then (s.fifo.head + 1) % s.cfg.capacity else s.fifo.head) ∧
      t.fifo.cnt = (if s.fifo.cnt = s.cfg.capacity then s.cfg.capacity else s.fifo.cnt + 1)

/-- R112: repeated appends keep the last `C` bytes, whatever the FIFO held. -/
def Obligations.RepeatedAppendsKeepLastBytes : Prop :=
  ∀ (s : State) (bs : List Byte) (rest : List Request), s.Inv → s.idle = true → s.host = appends bs ++ rest →
    ∃ t, run bs.length s = .next t ∧
      t.q = (s.q ++ bs).drop (s.q.length + bs.length - s.cfg.capacity) ∧
      t.responses = s.responses ++ List.replicate bs.length .done ∧
      t.host = rest ∧ t.cfg = s.cfg ∧ t.last = s.last ∧ t.scan = none ∧ t.waiting = false ∧ t.env = s.env ∧
      t.handed = s.handed

/-- R113, R114, R188: DRAIN, with its select code: the first `n` bytes go, or nothing goes when fewer are held. -/
def Obligations.DrainRemovesFrontOrIsRefused : Prop :=
  ∀ (s : State) (n : Nat), s.idle = true →
    (∀ p : PortIn, p.op = 2 → p.n < 2 ^ countWidth s.cfg.capacity →
      decode s.cfg.capacity (.port p) = .ok (.drain p.n)) ∧
    (n ≤ s.q.length → ∃ t, exec (.drain n) s = .next t ∧ t.q = s.q.drop n ∧
      t.fifo.head = (s.fifo.head + n) % s.cfg.capacity ∧ t.fifo.cnt = s.fifo.cnt - n ∧
      t.fifo.mem = s.fifo.mem ∧
      t.responses = s.responses ++ [.done] ∧ OnlyFifo s t) ∧
    (s.q.length < n → ∃ t, exec (.drain n) s = .next t ∧
      t.responses = s.responses ++ [.err (.drainRange n s.q.length)] ∧
      (Response.err (.drainRange n s.q.length)).status = 3 ∧ SameBlock s t ∧ SameWorld s t)

/-- R115, R116: SNAPSHOT, with its select code: the copy, byte for byte as the ring cells hold it; nothing is written. -/
def Obligations.SnapshotCopiesContent : Prop :=
  ∀ s : State, s.Inv → s.idle = true →
    (∀ p : PortIn, p.op = 3 → decode s.cfg.capacity (.port p) = .ok .snapshot) ∧
    ∃ t w, exec .snapshot s = .next t ∧ t.responses = s.responses ++ [.window w] ∧
      w = s.q ∧ w.length = s.fifo.cnt ∧ w.length ≤ s.cfg.capacity ∧
      (∀ k, k < s.fifo.cnt → w[k]? = Memory.read s.fifo.mem ((s.fifo.head + k) % s.cfg.capacity)) ∧
      SameBlock s t ∧ SameWorld s t

/-- R58: SNAPSHOT and SCAN issued twice with nothing between give the same answer twice. -/
def Obligations.SnapshotAndScanAreIdempotent : Prop :=
  ∀ (s : State) (i : Instr), (i = .snapshot ∨ i = .scan) → s.idle = true →
    ∃ t u a, exec i s = .next t ∧ exec i t = .next u ∧ t.responses = s.responses ++ [a] ∧
      u.responses = s.responses ++ [a, a] ∧ SameBlock s t ∧ SameBlock t u

/-- R20, R23, R32: two blocks whose rings hold the same `Q` answer every step alike. -/
def Obligations.RingPositionIsUnobservable : Prop :=
  ∀ s t : State, s.Inv → t.Inv → SameQ s t → SameOutcome (step s) (step t)

/-! ## The scanner -/

/-- R140: SCAN, with its select code: the scan of a fresh snapshot; nothing is written. -/
def Obligations.ScanReportsPacketsAndCount : Prop :=
  ∀ s : State, s.idle = true →
    (∀ p : PortIn, p.op = 4 → decode s.cfg.capacity (.port p) = .ok .scan) ∧
    ∃ t, exec .scan s = .next t ∧
      t.responses = s.responses ++ [.scanned (scanWindow s.q).1 (scanWindow s.q).2] ∧ SameBlock s t ∧ SameWorld s t

/-- R132: FRAME.MIN at the scan position, whatever the three middle bytes are. -/
def Obligations.FrameMinDecodesAndAdvancesByFive : Prop :=
  ∀ (s : State) (r : ScanRun) (state lo hi : Byte) (rest : List Byte), s.scan = some r →
    r.window.drop r.pc = 0x6E :: state :: lo :: hi :: 0x62 :: rest →
    decode s.cfg.capacity (.stream (r.window.drop r.pc)) = .ok (.frameMin state lo hi) ∧
    ∃ t p d, exec (.frameMin state lo hi) s = .next t ∧
      t.scan = some { window := r.window, pc := r.pc + 5, out := r.out ++ [.minimal p d] } ∧
      (p = true ↔ state = 2 ∨ state = 3) ∧ d.toNat = lo.toNat + 256 * hi.toNat ∧
      t.cfg = s.cfg ∧ t.fifo = s.fifo ∧ t.last = s.last ∧ t.waiting = s.waiting ∧ t.responses = s.responses ∧
      SameWorld s t

/-- R133: SKIP at the scan position, for every five bytes that are not a minimal frame. -/
def Obligations.SkipPassesOverOneByte : Prop :=
  ∀ (s : State) (r : ScanRun) (b0 b1 b2 b3 b4 : Byte) (rest : List Byte), s.scan = some r →
    r.window.drop r.pc = b0 :: b1 :: b2 :: b3 :: b4 :: rest → (b0 ≠ 0x6E ∨ b4 ≠ 0x62) →
    decode s.cfg.capacity (.stream (r.window.drop r.pc)) = .ok (.skip b0 b1 b2 b3 b4) ∧
    ∃ t, exec (.skip b0 b1 b2 b3 b4) s = .next t ∧
      t.scan = some { window := r.window, pc := r.pc + 1, out := r.out } ∧
      t.cfg = s.cfg ∧ t.fifo = s.fifo ∧ t.last = s.last ∧ t.waiting = s.waiting ∧ t.responses = s.responses ∧
      SameWorld s t

/-- R132, R133 ("requires `L - pc >= 5`"): neither row has a step in a scan with fewer than five bytes remaining. -/
def Obligations.StreamRowsNeedFiveBytes : Prop :=
  ∀ (s : State) (r : ScanRun) (b0 b1 b2 b3 b4 : Byte), s.scan = some r → r.window.length - r.pc < 5 →
    exec (.frameMin b1 b2 b3) s = .refused .fewerThanFiveBytes ∧
    exec (.skip b0 b1 b2 b3 b4) s = .refused .fewerThanFiveBytes

/-- Assumption 8 (a choice of the model): with no operation in progress a stream-level row is the scan of its own five bytes. -/
def Obligations.StreamRowAloneIsScanOfItsBytes : Prop :=
  ∀ (s : State) (b0 b1 b2 b3 b4 : Byte), s.idle = true →
    (∃ t, exec (.frameMin b1 b2 b3) s = .next t ∧
      t.responses = s.responses ++ [.scanned (scanWindow (minimalFrame b1 b2 b3)).1 5] ∧
      SameBlock s t ∧ SameWorld s t) ∧
    (WellFormed s.cfg.capacity (.skip b0 b1 b2 b3 b4) → ∃ t, exec (.skip b0 b1 b2 b3 b4) s = .next t ∧
      t.responses = s.responses ++
        [.scanned (scanWindow [b0, b1, b2, b3, b4]).1 (scanWindow [b0, b1, b2, b3, b4]).2] ∧
      SameBlock s t ∧ SameWorld s t)

/-- R134: with fewer than five bytes remaining the scan ends, and the position is the consumed count. -/
def Obligations.ScanStopsBelowFiveBytes : Prop :=
  ∀ (s : State) (r : ScanRun), s.waiting = false → s.scan = some r → r.window.length - r.pc < 5 →
    ∃ t, step s = .next t ∧ t.scan = none ∧ t.responses = s.responses ++ [.scanned r.out r.pc] ∧
      t.cfg = s.cfg ∧ t.fifo = s.fifo ∧ t.last = s.last ∧ t.waiting = false ∧ SameWorld s t

/-- R131, R57: running the stream-level steps one by one from the start of a window gives the response that the one step of
SCAN gives on that window. That a scan can stand in State is assumption 7. -/
def Obligations.SteppingTheScannerIsScan : Prop :=
  ∀ (s : State) (w : List Byte), s.waiting = false → s.scan = some { window := w, pc := 0, out := [] } →
    ∃ n t, n ≤ w.length + 1 ∧ run n s = .next t ∧ t.scan = none ∧
      t.responses = s.responses ++ [.scanned (scanWindow w).1 (scanWindow w).2] ∧
      t.cfg = s.cfg ∧ t.fifo = s.fifo ∧ t.last = s.last ∧ t.waiting = false ∧ SameWorld s t

/-- R139: the bounds on the consumed count, and what the last step of the loop says about it. -/
def Obligations.ConsumedCountBounds : Prop :=
  (∀ w : List Byte,
    (scanWindow w).2 ≤ w.length ∧ (w.length < 5 → (scanWindow w).2 = 0) ∧
    (5 ≤ w.length → w.length - 4 ≤ (scanWindow w).2) ∧ 5 * (scanWindow w).1.length ≤ (scanWindow w).2) ∧
  (∀ r : ScanRun, 5 ≤ r.window.length - r.pc → r.step.window.length - r.step.pc < 5 →
    (r.step = r.skip → r.step.pc = r.window.length - 4) ∧
    (r.step.pc = r.window.length → ∃ s lo hi, r.window.drop r.pc = minimalFrame s lo hi ∧ r.step = r.frame s lo hi))

/-- R144: short windows. -/
def Obligations.ShortWindowsYieldNothing : Prop :=
  scanWindow [] = ([], 0) ∧ ∀ w : List Byte, w.length ≤ 4 → scanWindow w = ([], 0)

/-- R141: the packet count, of every scan of at most `C` bytes. -/
def Obligations.PacketCountBound : Prop :=
  ∀ (c : Nat) (w : List Byte), w.length ≤ c →
    (scanWindow w).1.length ≤ w.length / 5 ∧ (scanWindow w).1.length ≤ pktMax c

/-- R135, R81, R137: the packet decoded, for every state code and every pair of distance bytes. -/
def Obligations.PacketDecoding : Prop :=
  ∀ s lo hi : Byte, ∃ d : Half, decodePacket s lo hi = .minimal (decide (s = 2 ∨ s = 3)) d ∧
    d.toNat = lo.toNat + 256 * hi.toNat

/-- R138 (a): bytes without a header before a true frame are all skipped, and the frame is decoded. -/
def Obligations.ScannerResynchronisesAfterNoise : Prop :=
  ∀ (noise rest : List Byte) (s lo hi : Byte), (∀ b ∈ noise, b ≠ minHeader) →
    scanWindow (noise ++ minimalFrame s lo hi ++ rest) =
      (decodePacket s lo hi :: (scanWindow rest).1, noise.length + 5 + (scanWindow rest).2)

/-- R143: how the stream is cut does not change what is decoded, as long as no append evicts. -/
def Obligations.ChunkingDoesNotChangePackets : Prop :=
  ∀ (c : Nat) (f : Fifo) (pieces : List (List Byte)), 5 ≤ c → f.Inv c → f.toList c = [] →
    feedsWhole c f pieces = true →
    (feed c f pieces).1 = (scanWindow pieces.flatten).1 ∧
    (feed c f pieces).2.toList c = pieces.flatten.drop (scanWindow pieces.flatten).2

/-- R146: after the consumed bytes are drained at most four stay, and a second scan finds nothing. -/
def Obligations.DrainedScanLeavesAtMostFourBytes : Prop :=
  ∀ (s : State) (rest : List Request), s.Inv → s.idle = true → s.host = scanDrain s.q ++ rest →
    ∃ t, run 2 s = .next t ∧ t.q = s.q.drop (scanWindow s.q).2 ∧ t.q.length ≤ 4 ∧ scanWindow t.q = ([], 0) ∧
      t.responses = s.responses ++ [.scanned (scanWindow s.q).1 (scanWindow s.q).2, .done] ∧ t.last = s.last ∧
      t.host = rest

/-- R145, R84: the bytes of a standard frame are skipped as noise when neither its length field nor its payload holds a header
byte; the last four bytes stay. That the row alone is the scan of its bytes, or of the last `C` of them when the frame is
longer, is the model's choice (assumptions 9 and 10, DESIGN CHOICE). -/
def Obligations.StandardFrameIsNoise : Prop :=
  ∀ (s : State) (payload : List Byte), WellFormed s.cfg.capacity (.frameStd payload) → s.idle = true →
    ∃ t w, exec (.frameStd payload) s = .next t ∧
      w = (encodeStdFrame payload).drop (10 + payload.length - s.cfg.capacity) ∧
      t.responses = s.responses ++ [.scanned (scanWindow w).1 (scanWindow w).2] ∧
      ((∀ b ∈ le16Bytes (BitVec.ofNat 16 payload.length) ++ payload, b ≠ 0x6E) →
        t.responses = s.responses ++ [.scanned [] (min (10 + payload.length) s.cfg.capacity - 4)]) ∧
      SameBlock s t ∧ SameWorld s t

/-- R145 in a scan in progress: the frame's bytes go through FRAME.MIN and SKIP, one stream-level step after another, until
the position has passed them or fewer than five bytes remain. -/
def Obligations.StandardFrameGoesThroughStreamSteps : Prop :=
  ∀ (s : State) (r : ScanRun) (payload : List Byte), s.scan = some r →
    ∃ t n, exec (.frameStd payload) s = .next t ∧ n ≤ 10 + payload.length ∧
      t.scan = some (ScanRun.step^[n] r) ∧
      (r.pc + 10 + payload.length ≤ (ScanRun.step^[n] r).pc ∨ (ScanRun.step^[n] r).remaining < 5) ∧
      (∀ m < n, (ScanRun.step^[m] r).pc < r.pc + 10 + payload.length ∧ 5 ≤ (ScanRun.step^[m] r).remaining) ∧
      t.cfg = s.cfg ∧ t.fifo = s.fifo ∧ t.last = s.last ∧ t.waiting = s.waiting ∧ t.responses = s.responses ∧
      SameWorld s t

/-- R118, R221, R138: when appends overflow the FIFO the oldest bytes are lost, and no response says so, and when what is left
of a cut frame holds no header byte, the scan that follows skips it and decodes the next whole frame. -/
def Obligations.EvictionTearIsSkipped : Prop :=
  ∀ (s : State) (bs torn rest : List Byte) (state lo hi : Byte) (moves : List Request), s.Inv → s.idle = true →
    s.host = appends bs ++ issueScan :: moves →
    lastOf s.cfg.capacity s.q bs = torn ++ minimalFrame state lo hi ++ rest → (∀ b ∈ torn, b ≠ minHeader) →
    ∃ t, run (bs.length + 1) s = .next t ∧
      (s.q ++ bs).take (s.q.length + bs.length - s.cfg.capacity) ++ t.q = s.q ++ bs ∧
      t.q = torn ++ minimalFrame state lo hi ++ rest ∧
      t.responses = s.responses ++ List.replicate bs.length .done ++
        [.scanned (decodePacket state lo hi :: (scanWindow rest).1) (torn.length + 5 + (scanWindow rest).2)] ∧
      t.last = s.last ∧ t.host = moves

/-! ## POLL -/

/-- R150: POLL, with its select code: given bytes it appends, scans, drains and caches; given a failure it ends at once. -/
def Obligations.PollAppendsScansDrainsCaches : Prop :=
  ∀ (s : State) (a : ReadAnswer) (rest : List ReadAnswer), s.Inv → s.idle = true →
    s.env.reads = a :: rest → readSize a ≤ s.cfg.chunkMax →
    (∀ p : PortIn, p.op = 5 → decode s.cfg.capacity (.port p) = .ok .poll) ∧
    ∃ t, exec .poll s = .next t ∧
      t.env = { s.env with reads := rest } ∧ t.cfg = s.cfg ∧ t.scan = none ∧ t.waiting = false ∧ t.host = s.host ∧
      t.handed = s.handed ∧
      (a = .fail → t.responses = s.responses ++ [.err .transportReadFailure] ∧ t.fifo = s.fifo ∧ t.last = s.last) ∧
      (∀ bs, a = .data bs → ∃ w out k, w = (s.q ++ bs).drop (s.q.length + bs.length - s.cfg.capacity) ∧
        (out, k) = scanWindow w ∧ k ≤ w.length ∧ t.q = w.drop k ∧
        t.last = (if out = [] then s.last else out.getLast?) ∧
        t.responses = s.responses ++ [.packets out] ∧
        t.fifo.head = (s.fifo.head + (s.q.length + bs.length - s.cfg.capacity) + k) % s.cfg.capacity ∧
        CellsKept s t bs.length)

/-- POLL and READ_LATEST answer a next state whatever the transport and the clock answer within their contract, listed or
free (R198, R159): POLL with one response, READ_LATEST with one response or waiting. -/
def Obligations.PollAndReadLatestAlwaysAnswer : Prop :=
  ∀ s : State, s.idle = true → s.ReadInContract →
    (∃ t a, exec .poll s = .next t ∧ t.responses = s.responses ++ [a] ∧ t.waiting = false ∧
      (a = .err .transportReadFailure ∨ ∃ out, a = .packets out)) ∧
    (∃ t, exec .readLatest s = .next t ∧
      ((t.waiting = true ∧ t.responses = s.responses) ∨
        (t.waiting = false ∧ ∃ a, t.responses = s.responses ++ [a] ∧
          (a = .err .transportReadFailure ∨ ∃ r, a = .reading r))))

/-- R153, R155: after a POLL that returns `Ok` at most four bytes are held. A POLL that is given nothing while at most four bytes
are held, and so any such POLL after it, returns no packet and changes neither `Q` nor `LAST`. -/
def Obligations.PollWithoutDataIsIdempotent : Prop :=
  (∀ (s t : State) (out : List Packet), s.Inv → exec .poll s = .next t →
    t.responses = s.responses ++ [.packets out] → t.q.length ≤ 4) ∧
  (∀ (t : State) (rest : List ReadAnswer), t.Inv → t.idle = true → t.q.length ≤ 4 → t.env.reads = .data [] :: rest →
    ∃ u, exec .poll t = .next u ∧ u.responses = t.responses ++ [.packets []] ∧ u.q = t.q ∧ u.last = t.last)

/-- R157: POLL has the effect on `Q`, and returns the packets, of `APPENDS bs`, SCAN, DRAIN; in addition it writes `LAST`. -/
def Obligations.PollIsAppendsScanDrain : Prop :=
  ∀ (s t u : State) (bs w : List Byte) (reads : List ReadAnswer) (host : List Request), s.Inv → s.idle = true →
    bs.length ≤ s.cfg.chunkMax →
    w = (s.q ++ bs).drop (s.q.length + bs.length - s.cfg.capacity) →
    step { s with env := { s.env with reads := .data bs :: reads }, host := issuePoll :: host } = .next t →
    run (bs.length + 2) { s with host := appends bs ++ scanDrain w ++ host } = .next u →
    t.q = u.q ∧ u.last = s.last ∧ t.last = newestOr (scanWindow w).1 s.last ∧
    t.responses = s.responses ++ [.packets (scanWindow w).1] ∧
    u.responses = s.responses ++ List.replicate bs.length .done ++ [.scanned (scanWindow w).1 (scanWindow w).2, .done]

/-- R143, R153, R157 for the whole machine: a stream read by successive POLLs in any pieces, with `CHUNK_MAX <= C - 4`, gives
the packets of one scan of the whole stream, leaves its undecided tail, and caches its newest packet. -/
def Obligations.PolledStreamDecodesAsOneScan : Prop :=
  ∀ (s : State) (pieces : List (List Byte)) (reads : List ReadAnswer) (host : List Request), s.Inv → s.idle = true →
    s.q = [] → s.cfg.chunkMax + 4 ≤ s.cfg.capacity → (∀ p ∈ pieces, p.length ≤ s.cfg.chunkMax) →
    s.env.reads = pieces.map .data ++ reads → s.host = List.replicate pieces.length issuePoll ++ host →
    ∃ (t : State) (outs : List (List Packet)), run pieces.length s = .next t ∧
      t.responses = s.responses ++ outs.map .packets ∧ outs.length = pieces.length ∧
      outs.flatten = (scanWindow pieces.flatten).1 ∧
      t.q = pieces.flatten.drop (scanWindow pieces.flatten).2 ∧
      t.last = newestOr (scanWindow pieces.flatten).1 s.last

/-- R26, R152: `LAST` changes only by the reset event, or to the newest packet decoded from the bytes just read; no step sets
it back to `None` but reset. -/
def Obligations.LastChangesOnlyByPollOrReset : Prop :=
  ∀ s t : State, s.Inv → step s = .next t → t.last ≠ s.last →
    (∃ handle maxWait s', s.fetch = .reset handle maxWait s' ∧ t.last = none) ∨
    (∃ bs p, s.readAnswer = .data bs ∧
      (scanWindow ((s.q ++ bs).drop (s.q.length + bs.length - s.cfg.capacity))).1.getLast? = some p ∧ t.last = some p ∧
      (s.waiting = true ∨ ∃ q rest, s.host = .op q :: rest ∧ (q.op = 5 ∨ q.op = 6)))

/-- R198, D20: an answer longer than `CHUNK_MAX` is outside the contract and has no step. -/
def Obligations.OverlongReadAnswerHasNoStep : Prop :=
  ∀ (s : State) (bs : List Byte) (rest : List ReadAnswer), s.env.reads = .data bs :: rest →
    s.cfg.chunkMax < bs.length → s.idle = true →
    exec .poll s = .fault (.readAnswerTooLong s.cfg.chunkMax bs.length) ∧
    exec .readLatest s = .fault (.readAnswerTooLong s.cfg.chunkMax bs.length)

/-! ## READ_LATEST -/

/-- R158, R160, R161: an iteration whose POLL decodes something ends READ_LATEST with that POLL's newest packet, fresh; the
clock is not asked. -/
def Obligations.ReadLatestReturnsFreshNewest : Prop :=
  ∀ (s : State) (bs : List Byte) (rest : List ReadAnswer) (p : Packet), s.Inv → s.idle = true →
    s.env.reads = .data bs :: rest → bs.length ≤ s.cfg.chunkMax →
    (scanWindow (lastOf s.cfg.capacity s.q bs)).1.getLast? = some p →
    ∃ t, exec .readLatest s = .next t ∧
      t.responses = s.responses ++ [.reading (some { packet := p, fresh := true })] ∧
      t.last = some p ∧ t.waiting = false ∧ t.env = { s.env with reads := rest } ∧
      t.q = (lastOf s.cfg.capacity s.q bs).drop (scanWindow (lastOf s.cfg.capacity s.q bs)).2 ∧
      t.cfg = s.cfg ∧ t.scan = none ∧ t.host = s.host ∧ t.handed = s.handed ∧
      CellsKept s t bs.length

/-- R158, R162: an iteration that decodes nothing and finds the budget used up ends READ_LATEST with the cached packet, not
fresh, or with no Reading if there is none. -/
def Obligations.ReadLatestFallsBackToCache : Prop :=
  ∀ (s : State) (bs : List Byte) (reads : List ReadAnswer) (expired : List Bool), s.Inv → s.idle = true →
    s.env.reads = .data bs :: reads → bs.length ≤ s.cfg.chunkMax → s.env.expired = true :: expired →
    (scanWindow (lastOf s.cfg.capacity s.q bs)).1 = [] →
    ∃ t a, exec .readLatest s = .next t ∧ t.responses = s.responses ++ [.reading a] ∧
      (s.last = none → a = none) ∧ (∀ p, s.last = some p → a = some { packet := p, fresh := false }) ∧
      t.last = s.last ∧ t.waiting = false ∧ t.env = { s.env with reads := reads, expired := expired } ∧
      t.q = (lastOf s.cfg.capacity s.q bs).drop (scanWindow (lastOf s.cfg.capacity s.q bs)).2 ∧
      t.cfg = s.cfg ∧ t.scan = none ∧ t.host = s.host ∧ t.handed = s.handed ∧
      CellsKept s t bs.length

/-- R158: an iteration that decodes nothing within the budget answers nothing and the loop goes on. -/
def Obligations.ReadLatestRetriesWithinBudget : Prop :=
  ∀ (s : State) (bs : List Byte) (reads : List ReadAnswer) (expired : List Bool), s.Inv → s.idle = true →
    s.env.reads = .data bs :: reads → bs.length ≤ s.cfg.chunkMax → s.env.expired = false :: expired →
    (scanWindow (lastOf s.cfg.capacity s.q bs)).1 = [] →
    ∃ t, exec .readLatest s = .next t ∧ t.waiting = true ∧ t.responses = s.responses ∧ t.last = s.last ∧
      t.env = { s.env with reads := reads, expired := expired } ∧
      t.q = (lastOf s.cfg.capacity s.q bs).drop (scanWindow (lastOf s.cfg.capacity s.q bs)).2 ∧
      t.cfg = s.cfg ∧ t.scan = none ∧ t.host = s.host ∧ t.handed = s.handed ∧
      CellsKept s t bs.length

/-- R158, R186, R191: a POLL that fails ends READ_LATEST at once, in its first iteration or a later one; that POLL changed
nothing. -/
def Obligations.ReadLatestPropagatesFailure : Prop :=
  ∀ (s : State) (rest : List ReadAnswer), s.scan = none → s.env.reads = .fail :: rest →
    (s.waiting = true ∨ ∃ h, s.host = .op (selectPort 6) :: h) →
    ∃ t, step s = .next t ∧ t.responses = s.responses ++ [.err .transportReadFailure] ∧ t.waiting = false ∧
      t.q = s.q ∧ t.fifo = s.fifo ∧ t.last = s.last ∧ t.env = { s.env with reads := rest }

/-- R159, R163: READ_LATEST ends, from its issue or from any point of its wait: with `n` answers `false` of the clock and then
`true` it has answered, once, after at most `n + 1` iterations, whatever the transport answers within its contract. That an iteration is
a step is assumption 6, and the fairness that is a premise here is assumption 18. -/
def Obligations.ReadLatestEndsWhenBudgetIsUsedUp : Prop :=
  ∀ (s : State) (n : Nat) (expired : List Bool), s.Inv → s.AtReadLatest →
    s.env.expired = List.replicate n false ++ true :: expired →
    n < s.env.reads.length → (∀ r ∈ s.env.reads, readSize r ≤ s.cfg.chunkMax) →
    ∃ m t a, m ≤ n + 1 ∧ run m s = .next t ∧ t.waiting = false ∧ t.responses = s.responses ++ [a] ∧
      (a = .err .transportReadFailure ∨ ∃ r, a = .reading r)

/-- R28, R160: a READ_LATEST from its issue (or from any point of its wait) in `s` to its Reading `r` in `t`, after `n` iterations
that went on waiting and a last one from `u`. The Reading is fresh exactly when an iteration decoded a frame, which only the
last can have done, and then it is that POLL's newest packet, and `LAST`. It is stale exactly when no iteration did, and then
it is the value `LAST` had from before the call to its end. That an iteration is a step is assumption 6. -/
def Obligations.FreshExactlyWhenDecodedDuringCall : Prop :=
  ∀ (s u t : State) (n : Nat) (r : Reading), s.Inv → s.AtReadLatest →
    (∀ m, 1 ≤ m → m ≤ n → ∃ v, run m s = .next v ∧ v.waiting = true) → run n s = .next u → step u = .next t →
    t.waiting = false → t.responses = s.responses ++ [.reading (some r)] →
    (r.fresh = true ↔ ∃ m v bs, m ≤ n ∧ run m s = .next v ∧ v.readAnswer = .data bs ∧
      (scanWindow (lastOf v.cfg.capacity v.q bs)).1 ≠ []) ∧
    (r.fresh = true → (∃ bs, u.readAnswer = .data bs ∧
      (scanWindow (lastOf u.cfg.capacity u.q bs)).1.getLast? = some r.packet) ∧ t.last = some r.packet) ∧
    (r.fresh = false → s.last = some r.packet ∧ t.last = s.last)

/-! ## The encoder -/

/-- R170, R171, R172: BUILD_COMMAND, with its select code: the frame of R82, or `LengthRange` when its length field would wrap. -/
def Obligations.BuildCommandReturnsFrameOrLengthRange : Prop :=
  ∀ (s : State) (code : Half) (params : List Byte), s.idle = true →
    (∀ p : PortIn, p.op = 7 → p.params.length = p.plen.toNat →
      decode s.cfg.capacity (.port p) = .ok (.buildCommand p.code p.params)) ∧
    (params.length ≤ 65533 → ∃ t lo hi cl ch, exec (.buildCommand code params) s = .next t ∧
      t.responses = s.responses ++
        [.frame ([0xFD, 0xFC, 0xFB, 0xFA] ++ [lo, hi] ++ [cl, ch] ++ params ++ [0x04, 0x03, 0x02, 0x01])] ∧
      lo.toNat + 256 * hi.toNat = 2 + params.length ∧ cl.toNat + 256 * ch.toNat = code.toNat ∧
      SameBlock s t ∧ SameWorld s t) ∧
    (65533 < params.length → ∃ t, exec (.buildCommand code params) s = .next t ∧
      t.responses = s.responses ++ [.err (.lengthRange params.length)] ∧ SameBlock s t ∧ SameWorld s t)

/-- R175: reading back the length and the code of an emitted frame. -/
def Obligations.CommandFrameReadsBack : Prop :=
  ∀ (code : Half) (params frame : List Byte), buildCommand code params = .ok frame →
    frame.length = 12 + params.length ∧ (le16 (frame.getD 4 0) (frame.getD 5 0)).toNat = 2 + params.length ∧
    le16 (frame.getD 6 0) (frame.getD 7 0) = code ∧ (frame.drop 8).take params.length = params

/-- R82, R83, R170: each CMD row is the emission of its frame, which is the one the decoder reads as that row; nothing is
handed to the transport (R199). That these rows are steps of their own is the model's choice (assumption 9, DESIGN CHOICE). -/
def Obligations.CmdRowEmitsItsFrame : Prop :=
  ∀ (s : State) (i : Instr), s.idle = true → WellFormed s.cfg.capacity i →
    ((∃ code params, i = .cmd code params) ∨ i = .cmdSetMin ∨ i = .cmdSetStd) →
    ∃ t bs, exec i s = .next t ∧ t.responses = s.responses ++ [.frame bs] ∧
      decode s.cfg.capacity (.frame bs) = .ok i ∧ SameBlock s t ∧ SameWorld s t

/-- R174, with the bytes of R83 and the select code: the 18 bytes are handed to the transport, and its failure is the error
response. -/
def Obligations.SendModeHandsFrameToTransport : Prop :=
  ∀ (s : State) (m : OutputMode) (a : WriteAnswer) (rest : List WriteAnswer), s.idle = true → s.env.writes = a :: rest →
    (∀ p : PortIn, p.op = 8 → p.mode = (match m with | .minimal => 0 | .standard => 1) →
      decode s.cfg.capacity (.port p) = .ok (.sendMode m)) ∧
    ∃ t, exec (.sendMode m) s = .next t ∧
      t.handed = s.handed ++
        [([0xFD, 0xFC, 0xFB, 0xFA, 0x08, 0x00, 0x7A, 0x00, 0x00, 0x00, 0x00,
          (match m with | .minimal => 0x00 | .standard => 0x01), 0x00, 0x00, 0x04, 0x03, 0x02, 0x01] : List Byte)] ∧
      t.responses = s.responses ++ [if a = .done then .done else .err .transportWriteFailure] ∧
      SameBlock s t ∧ t.env = { s.env with writes := rest } ∧ t.host = s.host

/-- R174, R199: SEND_MODE answers a next state whatever the transport answers, listed or free: its frame is handed over once,
and no other answer of the environment is drawn. -/
def Obligations.SendModeAlwaysAnswers : Prop :=
  ∀ (s : State) (m : OutputMode), s.idle = true →
    ∃ t a, exec (.sendMode m) s = .next t ∧ t.responses = s.responses ++ [a] ∧
      (a = .done ∨ a = .err .transportWriteFailure) ∧ t.handed = s.handed ++ [modeFrame m] ∧
      t.env.reads = s.env.reads ∧ t.env.expired = s.env.expired ∧ SameBlock s t ∧ t.host = s.host

/-- R199, R58: the only caller of the transport's write is SEND_MODE, under its select code, and each call hands over that
mode's frame once. -/
def Obligations.OnlyModeFramesAreSent : Prop :=
  ∀ s t : State, step s = .next t →
    t.handed = s.handed ∨
    (∃ p s' m, s.fetch = .instr (.port p) s' ∧ p.op = 8 ∧ decode s.cfg.capacity (.port p) = .ok (.sendMode m) ∧
      t.handed = s.handed ++ [match m with | .minimal => setMinFrame | .standard => setStdFrame])

/-! ## Reserved codes and errors -/

/-- R93, R189, R195: every reserved select code, whatever its operand fields, is answered `IllegalOp` with no state change. -/
def Obligations.ReservedCodesAnswerIllegalOp : Prop :=
  ∀ (s : State) (p : PortIn) (rest : List Request), s.idle = true → s.host = .op p :: rest →
    (p.op = 0 ∨ 9 ≤ p.op.toNat) →
    ∃ t i, decode s.cfg.capacity (.port p) = .ok i ∧ (p.op = 0 → i = .reserved0) ∧
      (9 ≤ p.op.toNat → i = .reserved9F p.op) ∧
      exec i { s with host := rest } = .next t ∧ step s = .next t ∧
      t.responses = s.responses ++ [.err .illegalOp] ∧
      SameBlock s t ∧ t.env = s.env ∧ t.host = rest ∧ t.handed = s.handed

/-- R191: an operation that ends with an error has changed no state of the block, and the block is ready for the next one; a
READ_LATEST that fails in a later iteration keeps what its earlier ones did, and the failing one changed nothing. -/
def Obligations.ErrorsLeaveTheBlockUnchanged : Prop :=
  (∀ (s t : State) (i : Instr) (e : Err), s.idle = true → exec i s = .next t →
    t.responses = s.responses ++ [.err e] → SameBlock s t ∧ t.idle = true ∧ t.host = s.host) ∧
  (∀ (s t : State) (e : Err), s.waiting = true → step s = .next t → t.responses = s.responses ++ [.err e] →
    t.cfg = s.cfg ∧ t.fifo = s.fifo ∧ t.last = s.last ∧ t.scan = s.scan ∧ t.waiting = false ∧ t.host = s.host)

/-- R29: `C`, `CHUNK_MAX` and `RETRY_DELAY` are never written, and `MAX_WAIT` and the transport handle only by reset. -/
def Obligations.ParametersAreFixed : Prop :=
  ∀ s t : State, step s = .next t →
    t.cfg.capacity = s.cfg.capacity ∧ t.cfg.chunkMax = s.cfg.chunkMax ∧ t.cfg.retryDelay = s.cfg.retryDelay ∧
    (t.cfg = s.cfg ∨ ∃ handle maxWait s', s.fetch = .reset handle maxWait s')
end

