-- ==== Sys2Proof/Laws/State.lean ====
section
/-! SUPPORT. One lemma per field per update of the state, and the small lemmas of the guards and the draws, so that no later
proof unfolds a record update. -/

namespace Sys2Proof.Machine

/-! ### `setFifo` -/

@[simp] theorem State.setFifo_cfg (s : State) (f : Fifo) : (s.setFifo f).cfg = s.cfg := rfl
@[simp] theorem State.setFifo_fifo (s : State) (f : Fifo) : (s.setFifo f).fifo = f := rfl
@[simp] theorem State.setFifo_last (s : State) (f : Fifo) : (s.setFifo f).last = s.last := rfl
@[simp] theorem State.setFifo_scan (s : State) (f : Fifo) : (s.setFifo f).scan = s.scan := rfl
@[simp] theorem State.setFifo_waiting (s : State) (f : Fifo) : (s.setFifo f).waiting = s.waiting := rfl
@[simp] theorem State.setFifo_env (s : State) (f : Fifo) : (s.setFifo f).env = s.env := rfl
@[simp] theorem State.setFifo_host (s : State) (f : Fifo) : (s.setFifo f).host = s.host := rfl
@[simp] theorem State.setFifo_handed (s : State) (f : Fifo) : (s.setFifo f).handed = s.handed := rfl
@[simp] theorem State.setFifo_responses (s : State) (f : Fifo) : (s.setFifo f).responses = s.responses := rfl

/-! ### `respond` -/

@[simp] theorem State.respond_cfg (s : State) (r : Response) : (s.respond r).cfg = s.cfg := rfl
@[simp] theorem State.respond_fifo (s : State) (r : Response) : (s.respond r).fifo = s.fifo := rfl
@[simp] theorem State.respond_last (s : State) (r : Response) : (s.respond r).last = s.last := rfl
@[simp] theorem State.respond_scan (s : State) (r : Response) : (s.respond r).scan = s.scan := rfl
@[simp] theorem State.respond_waiting (s : State) (r : Response) : (s.respond r).waiting = s.waiting := rfl
@[simp] theorem State.respond_env (s : State) (r : Response) : (s.respond r).env = s.env := rfl
@[simp] theorem State.respond_host (s : State) (r : Response) : (s.respond r).host = s.host := rfl
@[simp] theorem State.respond_handed (s : State) (r : Response) : (s.respond r).handed = s.handed := rfl
@[simp] theorem State.respond_responses (s : State) (r : Response) : (s.respond r).responses = s.responses ++ [r] := rfl

/-! ### `raise` -/

@[simp] theorem State.raise_cfg (s : State) (e : Err) : (s.raise e).cfg = s.cfg := rfl
@[simp] theorem State.raise_fifo (s : State) (e : Err) : (s.raise e).fifo = s.fifo := rfl
@[simp] theorem State.raise_last (s : State) (e : Err) : (s.raise e).last = s.last := rfl
@[simp] theorem State.raise_scan (s : State) (e : Err) : (s.raise e).scan = s.scan := rfl
@[simp] theorem State.raise_waiting (s : State) (e : Err) : (s.raise e).waiting = s.waiting := rfl
@[simp] theorem State.raise_env (s : State) (e : Err) : (s.raise e).env = s.env := rfl
@[simp] theorem State.raise_host (s : State) (e : Err) : (s.raise e).host = s.host := rfl
@[simp] theorem State.raise_handed (s : State) (e : Err) : (s.raise e).handed = s.handed := rfl
@[simp] theorem State.raise_responses (s : State) (e : Err) : (s.raise e).responses = s.responses ++ [.err e] := rfl

/-! ### `setScan` -/

@[simp] theorem State.setScan_cfg (s : State) (r : Option ScanRun) : (s.setScan r).cfg = s.cfg := rfl
@[simp] theorem State.setScan_fifo (s : State) (r : Option ScanRun) : (s.setScan r).fifo = s.fifo := rfl
@[simp] theorem State.setScan_last (s : State) (r : Option ScanRun) : (s.setScan r).last = s.last := rfl
@[simp] theorem State.setScan_scan (s : State) (r : Option ScanRun) : (s.setScan r).scan = r := rfl
@[simp] theorem State.setScan_waiting (s : State) (r : Option ScanRun) : (s.setScan r).waiting = s.waiting := rfl
@[simp] theorem State.setScan_env (s : State) (r : Option ScanRun) : (s.setScan r).env = s.env := rfl
@[simp] theorem State.setScan_host (s : State) (r : Option ScanRun) : (s.setScan r).host = s.host := rfl
@[simp] theorem State.setScan_handed (s : State) (r : Option ScanRun) : (s.setScan r).handed = s.handed := rfl
@[simp] theorem State.setScan_responses (s : State) (r : Option ScanRun) : (s.setScan r).responses = s.responses := rfl

/-! ### `closeScan` -/

@[simp] theorem State.closeScan_cfg (s : State) (r : ScanRun) : (s.closeScan r).cfg = s.cfg := rfl
@[simp] theorem State.closeScan_fifo (s : State) (r : ScanRun) : (s.closeScan r).fifo = s.fifo := rfl
@[simp] theorem State.closeScan_last (s : State) (r : ScanRun) : (s.closeScan r).last = s.last := rfl
@[simp] theorem State.closeScan_scan (s : State) (r : ScanRun) : (s.closeScan r).scan = none := rfl
@[simp] theorem State.closeScan_waiting (s : State) (r : ScanRun) : (s.closeScan r).waiting = s.waiting := rfl
@[simp] theorem State.closeScan_env (s : State) (r : ScanRun) : (s.closeScan r).env = s.env := rfl
@[simp] theorem State.closeScan_host (s : State) (r : ScanRun) : (s.closeScan r).host = s.host := rfl
@[simp] theorem State.closeScan_handed (s : State) (r : ScanRun) : (s.closeScan r).handed = s.handed := rfl
@[simp] theorem State.closeScan_responses (s : State) (r : ScanRun) : (s.closeScan r).responses = s.responses ++ [.scanned r.out r.pc] := rfl

/-! ### `setWaiting` -/

@[simp] theorem State.setWaiting_cfg (s : State) (w : Bool) : (s.setWaiting w).cfg = s.cfg := rfl
@[simp] theorem State.setWaiting_fifo (s : State) (w : Bool) : (s.setWaiting w).fifo = s.fifo := rfl
@[simp] theorem State.setWaiting_last (s : State) (w : Bool) : (s.setWaiting w).last = s.last := rfl
@[simp] theorem State.setWaiting_scan (s : State) (w : Bool) : (s.setWaiting w).scan = s.scan := rfl
@[simp] theorem State.setWaiting_waiting (s : State) (w : Bool) : (s.setWaiting w).waiting = w := rfl
@[simp] theorem State.setWaiting_env (s : State) (w : Bool) : (s.setWaiting w).env = s.env := rfl
@[simp] theorem State.setWaiting_host (s : State) (w : Bool) : (s.setWaiting w).host = s.host := rfl
@[simp] theorem State.setWaiting_handed (s : State) (w : Bool) : (s.setWaiting w).handed = s.handed := rfl
@[simp] theorem State.setWaiting_responses (s : State) (w : Bool) : (s.setWaiting w).responses = s.responses := rfl

/-! ### `setHost` -/

@[simp] theorem State.setHost_cfg (s : State) (h : List Request) : (s.setHost h).cfg = s.cfg := rfl
@[simp] theorem State.setHost_fifo (s : State) (h : List Request) : (s.setHost h).fifo = s.fifo := rfl
@[simp] theorem State.setHost_last (s : State) (h : List Request) : (s.setHost h).last = s.last := rfl
@[simp] theorem State.setHost_scan (s : State) (h : List Request) : (s.setHost h).scan = s.scan := rfl
@[simp] theorem State.setHost_waiting (s : State) (h : List Request) : (s.setHost h).waiting = s.waiting := rfl
@[simp] theorem State.setHost_env (s : State) (h : List Request) : (s.setHost h).env = s.env := rfl
@[simp] theorem State.setHost_host (s : State) (h : List Request) : (s.setHost h).host = h := rfl
@[simp] theorem State.setHost_handed (s : State) (h : List Request) : (s.setHost h).handed = s.handed := rfl
@[simp] theorem State.setHost_responses (s : State) (h : List Request) : (s.setHost h).responses = s.responses := rfl

/-! ### `resetEvent` -/

@[simp] theorem State.resetEvent_cfg (s : State) (h w : Nat) : (s.resetEvent h w).cfg = { s.cfg with handle := h, maxWait := w } := rfl
@[simp] theorem State.resetEvent_fifo (s : State) (h w : Nat) : (s.resetEvent h w).fifo = Fifo.empty := rfl
@[simp] theorem State.resetEvent_last (s : State) (h w : Nat) : (s.resetEvent h w).last = none := rfl
@[simp] theorem State.resetEvent_scan (s : State) (h w : Nat) : (s.resetEvent h w).scan = none := rfl
@[simp] theorem State.resetEvent_waiting (s : State) (h w : Nat) : (s.resetEvent h w).waiting = false := rfl
@[simp] theorem State.resetEvent_env (s : State) (h w : Nat) : (s.resetEvent h w).env = s.env := rfl
@[simp] theorem State.resetEvent_host (s : State) (h w : Nat) : (s.resetEvent h w).host = s.host := rfl
@[simp] theorem State.resetEvent_handed (s : State) (h w : Nat) : (s.resetEvent h w).handed = s.handed := rfl
@[simp] theorem State.resetEvent_responses (s : State) (h w : Nat) : (s.resetEvent h w).responses = s.responses := rfl

/-! ### `polled` -/

@[simp] theorem State.polled_cfg (s : State) (bs : List Byte) : (s.polled bs).cfg = s.cfg := rfl
@[simp] theorem State.polled_fifo (s : State) (bs : List Byte) : (s.polled bs).fifo = (s.polledFifo bs).drain s.cfg.capacity (s.pollScan bs).2 := rfl
@[simp] theorem State.polled_last (s : State) (bs : List Byte) : (s.polled bs).last = newestOr (s.pollPackets bs) s.last := rfl
@[simp] theorem State.polled_scan (s : State) (bs : List Byte) : (s.polled bs).scan = s.scan := rfl
@[simp] theorem State.polled_waiting (s : State) (bs : List Byte) : (s.polled bs).waiting = s.waiting := rfl
@[simp] theorem State.polled_env (s : State) (bs : List Byte) : (s.polled bs).env = s.env := rfl
@[simp] theorem State.polled_host (s : State) (bs : List Byte) : (s.polled bs).host = s.host := rfl
@[simp] theorem State.polled_handed (s : State) (bs : List Byte) : (s.polled bs).handed = s.handed := rfl
@[simp] theorem State.polled_responses (s : State) (bs : List Byte) : (s.polled bs).responses = s.responses := rfl

/-! ### `afterRead` -/

@[simp] theorem State.afterRead_env (s : State) : (s.afterRead).env = s.env.afterRead := rfl
@[simp] theorem State.afterRead_cfg (s : State) : (s.afterRead).cfg = s.cfg := rfl
@[simp] theorem State.afterRead_fifo (s : State) : (s.afterRead).fifo = s.fifo := rfl
@[simp] theorem State.afterRead_last (s : State) : (s.afterRead).last = s.last := rfl
@[simp] theorem State.afterRead_scan (s : State) : (s.afterRead).scan = s.scan := rfl
@[simp] theorem State.afterRead_waiting (s : State) : (s.afterRead).waiting = s.waiting := rfl
@[simp] theorem State.afterRead_host (s : State) : (s.afterRead).host = s.host := rfl
@[simp] theorem State.afterRead_handed (s : State) : (s.afterRead).handed = s.handed := rfl
@[simp] theorem State.afterRead_responses (s : State) : (s.afterRead).responses = s.responses := rfl

/-! ### `afterWrite` -/

@[simp] theorem State.afterWrite_env (s : State) (bs : List Byte) : (s.afterWrite bs).env = s.env.afterWrite := rfl
@[simp] theorem State.afterWrite_cfg (s : State) (bs : List Byte) : (s.afterWrite bs).cfg = s.cfg := rfl
@[simp] theorem State.afterWrite_fifo (s : State) (bs : List Byte) : (s.afterWrite bs).fifo = s.fifo := rfl
@[simp] theorem State.afterWrite_last (s : State) (bs : List Byte) : (s.afterWrite bs).last = s.last := rfl
@[simp] theorem State.afterWrite_scan (s : State) (bs : List Byte) : (s.afterWrite bs).scan = s.scan := rfl
@[simp] theorem State.afterWrite_waiting (s : State) (bs : List Byte) : (s.afterWrite bs).waiting = s.waiting := rfl
@[simp] theorem State.afterWrite_host (s : State) (bs : List Byte) : (s.afterWrite bs).host = s.host := rfl
@[simp] theorem State.afterWrite_handed (s : State) (bs : List Byte) : (s.afterWrite bs).handed = s.handed ++ [bs] := rfl
@[simp] theorem State.afterWrite_responses (s : State) (bs : List Byte) : (s.afterWrite bs).responses = s.responses := rfl

/-! ### `afterExpired` -/

@[simp] theorem State.afterExpired_env (s : State) : (s.afterExpired).env = s.env.afterExpired := rfl
@[simp] theorem State.afterExpired_cfg (s : State) : (s.afterExpired).cfg = s.cfg := rfl
@[simp] theorem State.afterExpired_fifo (s : State) : (s.afterExpired).fifo = s.fifo := rfl
@[simp] theorem State.afterExpired_last (s : State) : (s.afterExpired).last = s.last := rfl
@[simp] theorem State.afterExpired_scan (s : State) : (s.afterExpired).scan = s.scan := rfl
@[simp] theorem State.afterExpired_waiting (s : State) : (s.afterExpired).waiting = s.waiting := rfl
@[simp] theorem State.afterExpired_host (s : State) : (s.afterExpired).host = s.host := rfl
@[simp] theorem State.afterExpired_handed (s : State) : (s.afterExpired).handed = s.handed := rfl
@[simp] theorem State.afterExpired_responses (s : State) : (s.afterExpired).responses = s.responses := rfl

/-! ### Draws, for the listed answers -/

theorem State.readAnswer_of_reads {s : State} {r : ReadAnswer} {rest : List ReadAnswer} (h : s.env.reads = r :: rest) :
    s.readAnswer = r := by simp [State.readAnswer, h]

theorem Env.afterRead_of_reads {e : Env} {r : ReadAnswer} {rest : List ReadAnswer} (h : e.reads = r :: rest) :
    e.afterRead = { e with reads := rest } := by simp [Env.afterRead, h]

theorem Env.afterWrite_of_writes {e : Env} {r : WriteAnswer} {rest : List WriteAnswer} (h : e.writes = r :: rest) :
    e.afterWrite = { e with writes := rest } := by simp [Env.afterWrite, h]

theorem Env.afterExpired_of_expired {e : Env} {x : Bool} {rest : List Bool} (h : e.expired = x :: rest) :
    e.afterExpired = { e with expired := rest } := by simp [Env.afterExpired, h]

theorem State.readTooLong_of_reads {s : State} {r : ReadAnswer} {rest : List ReadAnswer} (h : s.env.reads = r :: rest) :
    s.readTooLong = decide (s.cfg.chunkMax < readSize r) := by simp [State.readTooLong, h]

theorem State.readTooLong_of_nil {s : State} (h : s.env.reads = []) : s.readTooLong = false := by
  simp [State.readTooLong, h]

theorem State.writeAnswer_of_writes {s : State} {r : WriteAnswer} {rest : List WriteAnswer}
    (h : s.env.writes = r :: rest) : s.writeAnswer = r := by simp [State.writeAnswer, h]

theorem State.expiredAnswer_of_expired {s : State} {x : Bool} {rest : List Bool} (h : s.env.expired = x :: rest) :
    s.expiredAnswer = x := by simp [State.expiredAnswer, h]

/-- A read answer, listed or free, that is within the contract holds at most `CHUNK_MAX` bytes (R198). -/
theorem State.readAnswer_size_le {s : State} (h : s.readTooLong = false) : readSize s.readAnswer ≤ s.cfg.chunkMax := by
  unfold State.readAnswer
  unfold State.readTooLong at h
  split at h
  · simpa using h
  · cases Config.freeRead s.env.draws <;> simp [boundedRead, readSize]

/-! ### Guards -/

@[simp] theorem State.idle_iff (s : State) : s.idle = true ↔ s.scan = none ∧ s.waiting = false := by
  simp [State.idle]

theorem State.whenIdle_of_idle {s : State} (h : s.idle = true) (o : Host.Outcome State Fault Refusal) :
    s.whenIdle o = o := by simp [State.whenIdle, h]

theorem State.whenIdle_of_busy {s : State} (h : s.idle = false) (o : Host.Outcome State Fault Refusal) :
    s.whenIdle o = .refused .operationInProgress := by simp [State.whenIdle, h]

/-- All that a guarded operation can do when it answers a next state. -/
theorem State.whenIdle_next {s t : State} {o : Host.Outcome State Fault Refusal} (h : s.whenIdle o = .next t) :
    s.idle = true ∧ o = .next t := by
  unfold State.whenIdle at h
  split at h
  · exact ⟨‹_›, h⟩
  · cases h

theorem State.withRead_of_contract {s : State} (h : s.readTooLong = false) (k : ReadAnswer → State → State) :
    s.withRead k = .next (k s.readAnswer s.afterRead) := by simp [State.withRead, h]

/-- All that an operation that reads the transport can do when it answers a next state. -/
theorem State.withRead_next {s t : State} {k : ReadAnswer → State → State} (h : s.withRead k = .next t) :
    s.readTooLong = false ∧ t = k s.readAnswer s.afterRead := by
  unfold State.withRead at h
  split at h
  · cases h
  · rename_i hs
    injection h with h
    exact ⟨by simpa using hs, h.symm⟩

/-- All that a write to the transport can do (R174, R199). -/
theorem State.send_cases (s : State) (bs : List Byte) :
    (s.writeAnswer = .done ∧ s.send bs = (s.afterWrite bs).respond .done) ∨
    (s.writeAnswer = .fail ∧ s.send bs = (s.afterWrite bs).raise .transportWriteFailure) := by
  unfold State.send
  cases s.writeAnswer with
  | done => exact .inl ⟨rfl, rfl⟩
  | fail => exact .inr ⟨rfl, rfl⟩

/-- All that answering a computation that may fail can do (R191). -/
theorem State.respondOrRaise_cases {α : Type} (s : State) (ok : α → Response) (x : Except Err α) :
    (∃ v, x = .ok v ∧ s.respondOrRaise ok x = s.respond (ok v)) ∨
    (∃ e, x = .error e ∧ s.respondOrRaise ok x = s.raise e) := by
  cases x with
  | ok v => exact .inl ⟨v, rfl, rfl⟩
  | error e => exact .inr ⟨e, rfl, rfl⟩

@[simp] theorem State.q_respond (s : State) (r : Response) : (s.respond r).q = s.q := rfl
@[simp] theorem State.q_setFifo (s : State) (f : Fifo) : (s.setFifo f).q = f.toList s.cfg.capacity := rfl

end Sys2Proof.Machine
end

