-- ==== Sys2Proof/Laws/Decode.lean ====
section
/-! SUPPORT. The byte order, and the decoder on the encodings (spec/30_encoding.md R53, R82, R84, R88). -/

namespace Sys2Proof

/-- A little-endian 16-bit value as a number (R88, R136). -/
theorem le16_toNat (lo hi : Byte) : (le16 lo hi).toNat = lo.toNat + 256 * hi.toNat := by
  have h1 := lo.isLt
  have h2 := hi.isLt
  have e : hi.toNat <<< 8 % 65536 = hi.toNat <<< 8 := by
    rw [Nat.shiftLeft_eq]; exact Nat.mod_eq_of_lt (by omega)
  have e1 : lo.toNat % 65536 = lo.toNat := Nat.mod_eq_of_lt (by omega)
  have e2 : hi.toNat % 65536 = hi.toNat := Nat.mod_eq_of_lt (by omega)
  simp only [le16, BitVec.toNat_or, BitVec.truncate_eq_setWidth, BitVec.toNat_setWidth, BitVec.toNat_shiftLeft, e1, e2, e,
    Nat.reducePow]
  rw [Nat.or_comm, ← Nat.shiftLeft_add_eq_or_of_lt h1, Nat.shiftLeft_eq]
  omega

/-- Splitting a 16-bit value and putting it together again. -/
@[simp] theorem le16_bytes (h : Half) : le16 (loByte h) (hiByte h) = h := by
  apply BitVec.eq_of_toNat_eq
  have hb := h.isLt
  rw [le16_toNat]
  simp only [loByte, hiByte, BitVec.extractLsb'_toNat, Nat.shiftRight_eq_div_pow]
  omega

/-- Putting two bytes together and splitting them again. -/
theorem bytes_le16 (lo hi : Byte) : le16Bytes (le16 lo hi) = [lo, hi] := by
  have h1 := lo.isLt
  have h2 := hi.isLt
  have e1 : loByte (le16 lo hi) = lo := by
    apply BitVec.eq_of_toNat_eq
    simp only [loByte, BitVec.extractLsb'_toNat, Nat.shiftRight_zero, le16_toNat]
    omega
  have e2 : hiByte (le16 lo hi) = hi := by
    apply BitVec.eq_of_toNat_eq
    simp only [hiByte, BitVec.extractLsb'_toNat, Nat.shiftRight_eq_div_pow, le16_toNat]
    omega
  simp [le16Bytes, e1, e2]

/-! ## Frames -/

theorem frameLengthField_of (a b c d : Byte) (h : Half) (rest : List Byte) :
    frameLengthField (a :: b :: c :: d :: (le16Bytes h ++ rest)) = h.toNat := by
  simp [frameLengthField, le16Bytes]

theorem encodeCmdFrame_length (code : Half) (params : List Byte) :
    (encodeCmdFrame code params).length = 12 + params.length := by
  simp [encodeCmdFrame, cmdHeader, le16Bytes, cmdTrailer]; omega

theorem encodeStdFrame_length (payload : List Byte) : (encodeStdFrame payload).length = 10 + payload.length := by
  simp [encodeStdFrame, stdHeader, le16Bytes, stdTrailer]; omega

theorem encodeCmdFrame_field (code : Half) {params : List Byte} (h : params.length ≤ 65533) :
    frameLengthField (encodeCmdFrame code params) = 2 + params.length := by
  have e := frameLengthField_of 0xFD 0xFC 0xFB 0xFA (BitVec.ofNat 16 (2 + params.length))
    (le16Bytes code ++ params ++ cmdTrailer)
  rw [BitVec.toNat_ofNat, Nat.mod_eq_of_lt (by omega)] at e
  simpa [encodeCmdFrame, cmdHeader] using e

theorem encodeStdFrame_field {payload : List Byte} (h : payload.length < 65536) :
    frameLengthField (encodeStdFrame payload) = payload.length := by
  have e := frameLengthField_of 0xF4 0xF3 0xF2 0xF1 (BitVec.ofNat 16 payload.length) (payload ++ stdTrailer)
  rw [BitVec.toNat_ofNat, Nat.mod_eq_of_lt h] at e
  simpa [encodeStdFrame, stdHeader] using e

theorem encodeCmdFrame_drop (code : Half) (params : List Byte) :
    (encodeCmdFrame code params).drop 8 = params ++ cmdTrailer := by
  simp [encodeCmdFrame, cmdHeader, le16Bytes]

theorem encodeCmdFrame_code (code : Half) (params : List Byte) :
    le16 ((encodeCmdFrame code params).getD 6 0) ((encodeCmdFrame code params).getD 7 0) = code := by
  simp [encodeCmdFrame, cmdHeader, le16Bytes]

theorem encodeCmdFrame_take (code : Half) (params : List Byte) :
    (encodeCmdFrame code params).take 4 = cmdHeader := by
  simp [encodeCmdFrame, cmdHeader, le16Bytes]

theorem encodeStdFrame_drop (payload : List Byte) : (encodeStdFrame payload).drop 6 = payload ++ stdTrailer := by
  simp [encodeStdFrame, stdHeader, le16Bytes]

theorem encodeStdFrame_take (payload : List Byte) : (encodeStdFrame payload).take 4 = stdHeader := by
  simp [encodeStdFrame, stdHeader, le16Bytes]

theorem setMinFrame_eq : setMinFrame = encodeCmdFrame switchOutputCode (modeParams .minimal) := by decide

theorem setStdFrame_eq : setStdFrame = encodeCmdFrame switchOutputCode (modeParams .standard) := by decide

/-- A command frame determines its code and its parameters. -/
theorem encodeCmdFrame_inj {code code' : Half} {params params' : List Byte}
    (h : encodeCmdFrame code params = encodeCmdFrame code' params') : code = code' ∧ params = params' := by
  constructor
  · have := congrArg (fun l => le16 (l.getD 6 0) (l.getD 7 0)) h
    simpa only [encodeCmdFrame_code] using this
  · have := congrArg (List.drop 8) h
    rw [encodeCmdFrame_drop, encodeCmdFrame_drop] at this
    exact List.append_cancel_right this

/-- The decoder reads the general command frame back. -/
theorem decodeCmdFrame_encode (code : Half) {params : List Byte} (h : params.length ≤ 65533) :
    decodeCmdFrame (encodeCmdFrame code params) = .ok (.cmd code params) := by
  have hd : (encodeCmdFrame code params).drop (6 + (2 + params.length)) = cmdTrailer := by
    rw [show 6 + (2 + params.length) = 8 + params.length by omega, ← List.drop_drop, encodeCmdFrame_drop]; simp
  unfold decodeCmdFrame
  rw [encodeCmdFrame_field code h, encodeCmdFrame_length, hd, if_neg (by omega), if_neg (by simp), encodeCmdFrame_code,
    encodeCmdFrame_drop]
  simp

/-- The decoder reads the standard frame back. -/
theorem decodeStdFrame_encode {payload : List Byte} (h : payload.length < 65536) :
    decodeStdFrame (encodeStdFrame payload) = .ok (.frameStd payload) := by
  have hd : (encodeStdFrame payload).drop (6 + payload.length) = stdTrailer := by
    rw [← List.drop_drop, encodeStdFrame_drop]; simp
  unfold decodeStdFrame
  rw [encodeStdFrame_field h, encodeStdFrame_length, hd, if_neg (by simp), if_neg (by simp), encodeStdFrame_drop]
  simp

end Sys2Proof
end

