-- ==== Sys2Proof/Laws/Fifo.lean ====
section
/-! SUPPORT. The ring cells and the ring: read after write, the canonical form, and the byte sequence the ring holds after
APPEND and DRAIN (spec/10_state.md R23, spec/40_fifo_ops.md). -/

namespace Sys2Proof.Machine

/-! ## Ring cells -/

@[simp] theorem Memory.read_write_same (m : Memory) (a : Nat) (v : Byte) :
    Memory.read (Memory.write m a v) a = some v := by
  induction m with
  | nil => simp [Memory.write, Memory.read]
  | cons e m ih =>
    obtain ⟨k, b⟩ := e
    unfold Memory.write
    split
    · simp [Memory.read]
    · split
      · simp [Memory.read]
      · simp [Memory.read, *]

theorem Memory.read_write_other (m : Memory) {a a' : Nat} (v : Byte) (h : a' ≠ a) :
    Memory.read (Memory.write m a v) a' = Memory.read m a' := by
  induction m with
  | nil => simp [Memory.write, Memory.read, h]
  | cons e m ih =>
    obtain ⟨k, b⟩ := e
    unfold Memory.write
    split
    · simp [Memory.read, h]
    · split
      · subst_vars; simp [Memory.read, h]
      · simp [Memory.read, ih]

theorem Memory.wf_tail {c : Nat} {e : Host.Cell} {m : Memory} (h : Memory.wf c (e :: m) = true) :
    Memory.wf c m = true := by
  cases m with
  | nil => rfl
  | cons e' m => obtain ⟨k, b⟩ := e; obtain ⟨k', b'⟩ := e'; simp [Memory.wf] at h; exact h.2

theorem Memory.wf_cons {c : Nat} {k : Nat} {b : Byte} {m : Memory} (hk : k < c) (hm : Memory.wf c m = true)
    (h : ∀ k' b' m', m = (k', b') :: m' → k < k') : Memory.wf c ((k, b) :: m) = true := by
  cases m with
  | nil => simp [Memory.wf, hk]
  | cons e' m => obtain ⟨k', b'⟩ := e'; simp [Memory.wf, h k' b' m rfl, hm]

theorem Memory.wf_head_lt {c : Nat} {k : Nat} {b : Byte} {m : Memory} (h : Memory.wf c ((k, b) :: m) = true) :
    k < c := by
  induction m generalizing k b with
  | nil => simpa [Memory.wf] using h
  | cons e m ih =>
    obtain ⟨k', b'⟩ := e
    simp [Memory.wf] at h
    have := ih (k := k') (b := b') (by simpa using h.2)
    omega

/-- A write inside the ring keeps the canonical form. -/
theorem Memory.write_wf {c : Nat} {m : Memory} {a : Nat} (v : Byte) (ha : a < c) (hm : Memory.wf c m = true) :
    Memory.wf c (Memory.write m a v) = true := by
  induction m with
  | nil => simp [Memory.write, Memory.wf, ha]
  | cons e m ih =>
    obtain ⟨k, b⟩ := e
    have htail := Memory.wf_tail hm
    have hk := Memory.wf_head_lt hm
    unfold Memory.write
    split
    · exact Memory.wf_cons ha hm (by rintro k' b' m' ⟨⟩; assumption)
    · split
      · subst_vars
        refine Memory.wf_cons ha htail ?_
        rintro k' b' m' rfl
        simp [Memory.wf] at hm
        exact hm.1
      · refine Memory.wf_cons hk (ih htail) ?_
        intro k' b' m' h
        cases m with
        | nil => simp [Memory.write] at h; omega
        | cons e' m =>
          obtain ⟨k'', b''⟩ := e'
          simp [Memory.wf] at hm
          unfold Memory.write at h
          split at h
          · cases h; omega
          · split at h
            · cases h; omega
            · cases h; omega

/-! ## The ring and the sequence it holds -/

@[simp] theorem Fifo.toList_length (c : Nat) (f : Fifo) : (f.toList c).length = f.cnt := by simp [Fifo.toList]

@[simp] theorem Fifo.toList_getElem (c : Nat) (f : Fifo) (k : Nat) (_ : k < (f.toList c).length) :
    (f.toList c)[k] = f.cell (f.place c k) := by simp [Fifo.toList]

theorem State.q_length (s : State) : s.q.length = s.fifo.cnt := by simp [State.q]

/-- Different logical indices stand in different cells (R52). -/
theorem Fifo.place_ne {c : Nat} {f : Fifo} {j k : Nat} (hjk : j < k) (hk : k < c) : f.place c j ≠ f.place c k := by
  unfold Fifo.place
  intro h
  have h1 := Nat.mod_add_div (f.head + j) c
  have h2 := Nat.mod_add_div (f.head + k) c
  rw [h] at h1
  generalize hq : (f.head + j) / c = q1 at h1
  generalize hq' : (f.head + k) / c = q2 at h2
  have h3 : c * q2 = c * q1 + (k - j) := by omega
  have h4 : q1 < q2 := by
    by_contra hcon
    have := Nat.mul_le_mul_left c (show q2 ≤ q1 by omega)
    omega
  have h5 : c * (q1 + 1) ≤ c * q2 := Nat.mul_le_mul_left c h4
  rw [Nat.mul_add] at h5
  omega

theorem Fifo.place_lt {c : Nat} (f : Fifo) (k : Nat) (hc : 0 < c) : f.place c k < c := Nat.mod_lt _ hc

/-- APPEND, ring against sequence (R110, R111). -/
theorem Fifo.append_toList {c : Nat} {f : Fifo} (hc : 0 < c) (hhead : f.head < c) (hcnt : f.cnt ≤ c) (b : Byte) :
    (f.append c b).toList c = if f.cnt = c then (f.toList c).drop 1 ++ [b] else f.toList c ++ [b] := by
  unfold Fifo.append
  split
  · rename_i hfull
    apply List.ext_getElem
    · simp [hfull]; omega
    · intro k h1 h2
      simp only [Fifo.toList_length] at h1
      rw [Fifo.toList_getElem, List.getElem_append]
      have e1 : Fifo.place c { mem := Memory.write f.mem f.head b, head := (f.head + 1) % c, cnt := f.cnt } k
          = f.place c (k + 1) := by
        simp [Fifo.place]; congr 1; omega
      rw [e1]
      split
      · rename_i hk
        simp at hk
        simp only [List.getElem_drop, Fifo.toList_getElem]
        have hne : f.place c (1 + k) ≠ f.head := by
          have := Fifo.place_ne (f := f) (c := c) (j := 0) (k := 1 + k) (by omega) (by omega)
          simp [Fifo.place, Nat.mod_eq_of_lt hhead] at this ⊢
          exact fun h => this h.symm
        simp only [Fifo.cell, Nat.add_comm k 1]
        rw [Memory.read_write_other _ _ hne]
      · rename_i hk
        simp at hk
        have : k + 1 = c := by omega
        have h0 : f.place c (k + 1) = f.head := by simp [Fifo.place, this, Nat.mod_eq_of_lt hhead]
        simp [Fifo.cell, h0]
  · rename_i hfull
    apply List.ext_getElem
    · simp
    · intro k h1 h2
      simp only [Fifo.toList_length] at h1
      rw [Fifo.toList_getElem, List.getElem_append]
      have e1 : Fifo.place c { mem := Memory.write f.mem (f.place c f.cnt) b, head := f.head, cnt := f.cnt + 1 } k
          = f.place c k := rfl
      rw [e1]
      split
      · rename_i hk
        simp at hk
        simp only [Fifo.toList_getElem, Fifo.cell]
        rw [Memory.read_write_other _ _ (Fifo.place_ne hk (by omega))]
      · rename_i hk
        simp at hk
        have : k = f.cnt := by omega
        subst this
        simp [Fifo.cell]

/-- DRAIN, ring against sequence (R113, R114). -/
theorem Fifo.drain_toList (c : Nat) (f : Fifo) (n : Nat) :
    (f.drain c n).toList c = (f.toList c).drop n := by
  apply List.ext_getElem
  · simp [Fifo.drain]
  · intro k h1 h2
    simp only [List.getElem_drop, Fifo.toList_getElem]
    simp [Fifo.drain, Fifo.cell, Fifo.place, Nat.add_assoc]

/-- APPEND keeps the ring's invariant. -/
theorem Fifo.append_inv {c : Nat} {f : Fifo} (hc : 0 < c) (hf : f.Inv c) (b : Byte) : (f.append c b).Inv c := by
  have hw : ∀ a, (Memory.read f.mem a).isSome = true → ∀ a', (Memory.read (Memory.write f.mem a' b) a).isSome = true := by
    intro a ha a'
    by_cases h : a = a'
    · subst h; simp
    · rw [Memory.read_write_other _ _ h]; exact ha
  unfold Fifo.append
  split
  · rename_i hfull
    refine ⟨Nat.mod_lt _ hc, hf.cnt_le, Memory.write_wf b hf.head_lt hf.mem_wf, ?_⟩
    intro k hk
    have e1 : Fifo.place c { mem := Memory.write f.mem f.head b, head := (f.head + 1) % c, cnt := f.cnt } k
        = f.place c (k + 1) := by
      simp [Fifo.place]; congr 1; omega
    rw [e1]
    simp only at hk
    by_cases hlast : k + 1 < f.cnt
    · exact hw _ (hf.live _ hlast) _
    · have : k + 1 = c := by omega
      have h0 : f.place c (k + 1) = f.head := by simp [Fifo.place, this, Nat.mod_eq_of_lt hf.head_lt]
      simp [h0]
  · rename_i hfull
    have hcnt := hf.cnt_le
    refine ⟨hf.head_lt, by simp only; omega, Memory.write_wf b (Fifo.place_lt f _ hc) hf.mem_wf, ?_⟩
    intro k hk
    have e1 : Fifo.place c { mem := Memory.write f.mem (f.place c f.cnt) b, head := f.head, cnt := f.cnt + 1 } k
        = f.place c k := rfl
    rw [e1]
    simp only at hk
    by_cases hlast : k < f.cnt
    · exact hw _ (hf.live _ hlast) _
    · have : k = f.cnt := by omega
      subst this; simp

/-- DRAIN keeps the ring's invariant. -/
theorem Fifo.drain_inv {c : Nat} {f : Fifo} (hc : 0 < c) (hf : f.Inv c) {n : Nat} (hn : n ≤ f.cnt) :
    (f.drain c n).Inv c := by
  refine ⟨Nat.mod_lt _ hc, by have := hf.cnt_le; simp only [Fifo.drain]; omega, hf.mem_wf, ?_⟩
  intro k hk
  have hk' : k < f.cnt - n := hk
  have h := hf.live (n + k) (by omega)
  simpa [Fifo.drain, Fifo.place, Nat.add_assoc] using h

theorem Fifo.empty_inv {c : Nat} (hc : 0 < c) : Fifo.empty.Inv c :=
  ⟨hc, Nat.zero_le _, rfl, fun k hk => absurd hk (Nat.not_lt_zero k)⟩

theorem Fifo.append_cnt (c : Nat) (f : Fifo) (b : Byte) :
    (f.append c b).cnt = if f.cnt = c then f.cnt else f.cnt + 1 := by
  unfold Fifo.append; split <;> simp [*]

theorem Fifo.appendAll_inv {c : Nat} (hc : 0 < c) (bs : List Byte) {f : Fifo} (hf : f.Inv c) :
    (f.appendAll c bs).Inv c := by
  induction bs generalizing f with
  | nil => exact hf
  | cons b bs ih => exact ih (Fifo.append_inv hc hf b)

/-- A FIFO never ends up with more than `C` bytes (R21, R112). -/
theorem lastOf_length {c : Nat} {q bs : List Byte} (hq : q.length ≤ c) : (lastOf c q bs).length ≤ c := by
  simp only [lastOf, List.length_drop, List.length_append]; omega

/-- Bytes that fit all stay. -/
theorem lastOf_nil_of_le {c : Nat} {bs : List Byte} (h : bs.length ≤ c) : lastOf c [] bs = bs := by
  simp [lastOf, Nat.sub_eq_zero_of_le h]

/-- Of the bytes that came to an empty FIFO as many stay as fit. -/
theorem lastOf_nil_length (c : Nat) (bs : List Byte) : (lastOf c [] bs).length = min bs.length c := by
  simp only [lastOf, List.nil_append, List.length_nil, List.length_drop]; omega

/-- Repeated appends: the last `C` of all the bytes (R112). -/
theorem Fifo.appendAll_toList {c : Nat} (hc : 0 < c) (bs : List Byte) {f : Fifo} (hf : f.Inv c) :
    (f.appendAll c bs).toList c = lastOf c (f.toList c) bs := by
  induction bs generalizing f with
  | nil =>
    have := hf.cnt_le
    have h0 : f.cnt - c = 0 := by omega
    simp [Fifo.appendAll, lastOf, h0]
  | cons b bs ih =>
    have h := ih (Fifo.append_inv hc hf b)
    have hle := hf.cnt_le
    have e : Fifo.appendAll c f (b :: bs) = Fifo.appendAll c (f.append c b) bs := rfl
    rw [e, h, Fifo.append_toList hc hf.head_lt hle]
    unfold lastOf
    split
    · rename_i hfull
      simp only [List.length_append, List.length_drop, Fifo.toList_length, List.length_cons, List.length_nil]
      have hl : 1 ≤ (f.toList c).length := by simp; omega
      rw [List.append_assoc, ← List.drop_append_of_le_length hl, List.drop_drop]
      simp only [List.singleton_append]
      congr 1
      omega
    · simp only [List.length_append, Fifo.toList_length, List.length_cons, List.length_nil, List.append_assoc,
        List.singleton_append]
      congr 1
      omega

end Sys2Proof.Machine
end

