-- ==== Sys2Proof/Laws/PerInstr.lean ====
section
/-! SUPPORT. The round trip of the encoding, one lemma for each constructor of `Instr` (LAWS.json, family RoundTrip). -/

namespace Sys2Proof.Laws.RoundTrip

/-- Decoding the encoding of a well-formed instruction gives it back, for a block of any capacity. -/
def Statement (i : Instr) : Prop := ∀ c : Nat, WellFormed c i → decode c (encode i) = .ok i

theorem append (b : Byte) : Statement (.append b) := fun _ _ => rfl

theorem drain (n : Nat) : Statement (.drain n) := by
  intro c h
  have hn : n < 2 ^ countWidth c := by
    by_contra hc
    simp [WellFormed, Instr.check, hc] at h
  simp [encode, decode, decodePort, selectPort, hn]

theorem snapshot : Statement .snapshot := fun _ _ => rfl

theorem scan : Statement .scan := fun _ _ => rfl

theorem poll : Statement .poll := fun _ _ => rfl

theorem readLatest : Statement .readLatest := fun _ _ => rfl

theorem buildCommand (code : Half) (params : List Byte) : Statement (.buildCommand code params) := by
  intro c h
  have hl : params.length < 65536 := by
    by_contra hc
    simp [WellFormed, Instr.check, hc] at h
  have e : params.length % 65536 = params.length := Nat.mod_eq_of_lt hl
  simp [encode, decode, decodePort, selectPort, e]

theorem sendMode (mode : OutputMode) : Statement (.sendMode mode) := by
  intro c _
  cases mode <;> rfl

theorem reserved0 : Statement .reserved0 := fun _ _ => rfl

theorem reserved9F (op : BitVec 4) : Statement (.reserved9F op) := by
  intro c h
  have h9 : 9 ≤ op.toNat := by
    by_contra hc
    simp [WellFormed, Instr.check, hc] at h
  simp only [encode, decode, decodePort, selectPort]
  split <;> first | omega | rfl

theorem frameMin (state lo hi : Byte) : Statement (.frameMin state lo hi) := by
  intro c _
  simp [encode, decode, decodeStream]

theorem skip (b0 b1 b2 b3 b4 : Byte) : Statement (.skip b0 b1 b2 b3 b4) := by
  intro c h
  have hno : ¬(b0 = minHeader ∧ b4 = minTrailer) := by
    intro hc
    simp [WellFormed, Instr.check, hc] at h
  simp [encode, decode, decodeStream, hno]

theorem cmd (code : Half) (params : List Byte) : Statement (.cmd code params) := by
  intro c h
  have hl : params.length ≤ 65533 := by
    by_contra hc
    simp [WellFormed, Instr.check, show 65533 < params.length by omega] at h
  have hm : ¬(code = switchOutputCode ∧ (params = modeParams .minimal ∨ params = modeParams .standard)) := by
    intro hc
    simp only [WellFormed, Instr.check] at h
    rw [if_neg (by omega), if_pos hc] at h
    cases h
  have e1 : encodeCmdFrame code params ≠ setMinFrame := fun he =>
    hm (by obtain ⟨a, b⟩ := encodeCmdFrame_inj (he.trans setMinFrame_eq); exact ⟨a, .inl b⟩)
  have e2 : encodeCmdFrame code params ≠ setStdFrame := fun he =>
    hm (by obtain ⟨a, b⟩ := encodeCmdFrame_inj (he.trans setStdFrame_eq); exact ⟨a, .inr b⟩)
  simp only [encode, decode, decodeFrame, e1, e2, encodeCmdFrame_take, if_true, if_false]
  exact decodeCmdFrame_encode code hl

theorem cmdSetMin : Statement .cmdSetMin := fun _ _ => rfl

theorem cmdSetStd : Statement .cmdSetStd := fun _ _ => rfl

theorem frameStd (payload : List Byte) : Statement (.frameStd payload) := by
  intro c h
  have hl : payload.length < 65536 := by
    by_contra hc
    simp [WellFormed, Instr.check, hc] at h
  have ht := encodeStdFrame_take payload
  have e1 : encodeStdFrame payload ≠ setMinFrame := fun he => absurd (he ▸ ht) (by decide)
  have e2 : encodeStdFrame payload ≠ setStdFrame := fun he => absurd (he ▸ ht) (by decide)
  have e3 : stdHeader ≠ cmdHeader := by decide
  simp only [encode, decode, decodeFrame, e1, e2, e3, ht, if_true, if_false]
  exact decodeStdFrame_encode hl

end Sys2Proof.Laws.RoundTrip
end

