-- ==== Sys2Proof/Laws/Scan.lean ====
section
/-! SUPPORT. The loop of spec/41_scanner.md R131 against the recursion over the remaining stream, and the laws of the scan that
follow. -/

namespace Sys2Proof.Machine

/-- The scan as a recursion over the bytes from the scan position on. -/
def scanList : List Byte → List Packet × Nat
  | b0 :: b1 :: b2 :: b3 :: b4 :: rest =>
    if b0 = minHeader ∧ b4 = minTrailer then
      (decodePacket b1 b2 b3 :: (scanList rest).1, 5 + (scanList rest).2)
    else
      ((scanList (b1 :: b2 :: b3 :: b4 :: rest)).1, 1 + (scanList (b1 :: b2 :: b3 :: b4 :: rest)).2)
  | _ => ([], 0)

theorem scanList_short {w : List Byte} (h : w.length < 5) : scanList w = ([], 0) := by
  match w with
  | [] | [_] | [_, _] | [_, _, _] | [_, _, _, _] => rfl
  | _ :: _ :: _ :: _ :: _ :: _ => simp at h; omega

/-- A frame at the scan position. -/
theorem scanList_frame (s lo hi : Byte) (rest : List Byte) :
    scanList (minHeader :: s :: lo :: hi :: minTrailer :: rest)
      = (decodePacket s lo hi :: (scanList rest).1, 5 + (scanList rest).2) := by
  rw [scanList]; simp

/-- An unsynchronised byte at the scan position. -/
theorem scanList_skip {b : Byte} {w : List Byte} (hl : 4 ≤ w.length)
    (h : ¬(b = minHeader ∧ w[3]? = some minTrailer)) :
    scanList (b :: w) = ((scanList w).1, 1 + (scanList w).2) := by
  match w with
  | [] | [_] | [_, _] | [_, _, _] => simp at hl
  | b1 :: b2 :: b3 :: b4 :: rest =>
    rw [scanList, if_neg]
    simpa using h

/-- What one stream-level decode of a window of at least five bytes says. -/
theorem scanList_cons_cases (b : Byte) (w : List Byte) (hl : 4 ≤ w.length) :
    (∃ s lo hi rest, b = minHeader ∧ w = s :: lo :: hi :: minTrailer :: rest ∧
      scanList (b :: w) = (decodePacket s lo hi :: (scanList rest).1, 5 + (scanList rest).2)) ∨
    (¬(b = minHeader ∧ w[3]? = some minTrailer) ∧
      scanList (b :: w) = ((scanList w).1, 1 + (scanList w).2)) := by
  by_cases h : b = minHeader ∧ w[3]? = some minTrailer
  · left
    match w with
    | [] | [_] | [_, _] | [_, _, _] => simp at hl
    | s :: lo :: hi :: b4 :: rest =>
      obtain ⟨rfl, h4⟩ := h
      simp at h4
      subst h4
      exact ⟨s, lo, hi, rest, rfl, rfl, scanList_frame s lo hi rest⟩
  · exact .inr ⟨h, scanList_skip hl h⟩

/-- An induction over the decodes of a window. -/
theorem scan_induction {P : List Byte → Prop} (short : ∀ w, w.length < 5 → P w)
    (frame : ∀ s lo hi rest, P rest → P (minHeader :: s :: lo :: hi :: minTrailer :: rest))
    (skip : ∀ b w, 4 ≤ w.length → ¬(b = minHeader ∧ w[3]? = some minTrailer) → P w → P (b :: w)) :
    ∀ w, P w := by
  intro w
  induction hn : w.length using Nat.strong_induction_on generalizing w with
  | _ n ih =>
    match w with
    | [] => exact short _ (by simp)
    | b :: w =>
      by_cases hl : 4 ≤ w.length
      · by_cases h : b = minHeader ∧ w[3]? = some minTrailer
        · match w with
          | [] | [_] | [_, _] | [_, _, _] => simp at hl
          | s :: lo :: hi :: b4 :: rest =>
            obtain ⟨rfl, h4⟩ := h
            simp at h4
            subst h4
            exact frame s lo hi rest (ih _ (by simp at hn; omega) _ rfl)
        · exact skip b w hl h (ih _ (by simp at hn; omega) _ rfl)
      · exact short _ (by simp; omega)

/-! ## The loop -/

theorem decodeStream_short {w : List Byte} (h : w.length < 5) : decodeStream w = .error .fewerThanFive := by
  match w with
  | [] | [_] | [_, _] | [_, _, _] | [_, _, _, _] => rfl
  | _ :: _ :: _ :: _ :: _ :: _ => simp at h; omega

theorem decodeStream_frame (s lo hi : Byte) (rest : List Byte) :
    decodeStream (minHeader :: s :: lo :: hi :: minTrailer :: rest) = .ok (.frameMin s lo hi) := by
  simp [decodeStream]

theorem decodeStream_skip {b : Byte} {w : List Byte} (hl : 4 ≤ w.length)
    (h : ¬(b = minHeader ∧ w[3]? = some minTrailer)) :
    ∃ b1 b2 b3 b4, decodeStream (b :: w) = .ok (.skip b b1 b2 b3 b4) := by
  match w with
  | [] | [_] | [_, _] | [_, _, _] => simp at hl
  | b1 :: b2 :: b3 :: b4 :: rest =>
    refine ⟨b1, b2, b3, b4, ?_⟩
    simp only [decodeStream]
    rw [if_neg]
    simpa using h

theorem ScanRun.ahead_length (r : ScanRun) : r.ahead.length = r.remaining := by
  simp [ScanRun.ahead, ScanRun.remaining]

theorem ScanRun.step_frame {r : ScanRun} {s lo hi : Byte} {rest : List Byte}
    (h : r.ahead = minHeader :: s :: lo :: hi :: minTrailer :: rest) : r.step = r.frame s lo hi := by
  simp [ScanRun.step, h, decodeStream_frame]

theorem ScanRun.step_skip {r : ScanRun} {b : Byte} {w : List Byte} (ha : r.ahead = b :: w) (hl : 4 ≤ w.length)
    (h : ¬(b = minHeader ∧ w[3]? = some minTrailer)) : r.step = r.skip := by
  obtain ⟨b1, b2, b3, b4, hd⟩ := decodeStream_skip hl h
  simp [ScanRun.step, ha, hd]

theorem ScanRun.frame_ahead {r : ScanRun} {s lo hi : Byte} {rest : List Byte}
    (h : r.ahead = minHeader :: s :: lo :: hi :: minTrailer :: rest) : (r.frame s lo hi).ahead = rest := by
  have : (r.frame s lo hi).ahead = r.ahead.drop 5 := by simp [ScanRun.ahead, ScanRun.frame]
  rw [this, h]; rfl

theorem ScanRun.skip_ahead {r : ScanRun} {b : Byte} {w : List Byte} (h : r.ahead = b :: w) : r.skip.ahead = w := by
  have : r.skip.ahead = r.ahead.drop 1 := by simp [ScanRun.ahead, ScanRun.skip]
  rw [this, h]; rfl

theorem ScanRun.runTo_stop {r : ScanRun} (limit n : Nat) (h : r.remaining < 5) : r.runTo limit n = r := by
  cases n with
  | zero => rfl
  | succ n => simp [ScanRun.runTo]; omega

/-- The loop, with passes enough, is the recursion over what lies ahead. -/
theorem ScanRun.runTo_eq (n : Nat) (r : ScanRun) (hn : r.remaining ≤ n) :
    r.runTo r.window.length n
      = { window := r.window, pc := r.pc + (scanList r.ahead).2, out := r.out ++ (scanList r.ahead).1 } := by
  induction n generalizing r with
  | zero =>
    have h5 : r.remaining < 5 := by omega
    rw [ScanRun.runTo_stop _ _ h5, scanList_short (by rw [ScanRun.ahead_length]; exact h5)]
    simp
  | succ n ih =>
    by_cases h5 : r.remaining < 5
    · rw [ScanRun.runTo_stop _ _ h5, scanList_short (by rw [ScanRun.ahead_length]; exact h5)]
      simp
    · have hpc : r.pc < r.window.length := by unfold ScanRun.remaining at h5; omega
      rw [ScanRun.runTo, if_pos ⟨by omega, hpc⟩]
      have hal := r.ahead_length
      match ha : r.ahead with
      | [] => simp [ha] at hal; omega
      | b :: w =>
        have hl : 4 ≤ w.length := by simp [ha] at hal; omega
        rcases scanList_cons_cases b w hl with ⟨s, lo, hi, rest, rfl, rfl, e⟩ | ⟨hno, e⟩
        · rw [ScanRun.step_frame ha, e]
          have hw : (r.frame s lo hi).window = r.window := rfl
          have := ih (r.frame s lo hi) (by simp [ScanRun.remaining, ScanRun.frame] at hn ⊢; omega)
          rw [hw] at this
          rw [this, ScanRun.frame_ahead ha]
          simp [ScanRun.frame, Nat.add_assoc]
        · rw [ScanRun.step_skip ha hl hno, e]
          have hw : r.skip.window = r.window := rfl
          have := ih r.skip (by simp [ScanRun.remaining, ScanRun.skip] at hn ⊢; omega)
          rw [hw] at this
          rw [this, ScanRun.skip_ahead ha]
          simp [ScanRun.skip, Nat.add_assoc]

theorem ScanRun.finish_start (w : List Byte) :
    (ScanRun.start w).finish = { window := w, pc := (scanList w).2, out := (scanList w).1 } := by
  have h := ScanRun.runTo_eq w.length (ScanRun.start w) (by simp [ScanRun.remaining, ScanRun.start])
  simpa [ScanRun.finish, ScanRun.start, ScanRun.ahead] using h

/-- `Scan(W)` is the recursion over the window. -/
theorem scanWindow_eq (w : List Byte) : scanWindow w = scanList w := by
  simp [scanWindow, ScanRun.finish_start]

/-! ## Laws of the recursion -/

/-- The bounds on the consumed count (R139). -/
theorem scanList_bounds (w : List Byte) :
    (scanList w).2 ≤ w.length ∧ (w.length < 5 → (scanList w).2 = 0) ∧ (5 ≤ w.length → w.length - 4 ≤ (scanList w).2) ∧
      5 * (scanList w).1.length ≤ (scanList w).2 := by
  induction w using scan_induction with
  | short w h => simp [scanList_short h]; omega
  | frame s lo hi rest ih =>
    rw [scanList_frame]
    simp only [List.length_cons]
    refine ⟨by omega, by omega, fun _ => ?_, by omega⟩
    by_cases h5 : rest.length < 5
    · have := ih.2.1 h5; omega
    · have := ih.2.2.1 (by omega); omega
  | skip b w hl hno ih =>
    rw [scanList_skip hl hno]
    simp only [List.length_cons]
    refine ⟨by omega, by omega, fun _ => ?_, by omega⟩
    by_cases h5 : w.length < 5
    · have := ih.2.1 h5; omega
    · have := ih.2.2.1 (by omega); omega

theorem scanList_le (w : List Byte) : (scanList w).2 ≤ w.length := (scanList_bounds w).1

/-- What stays after a scan is at most four bytes, and holds no frame. -/
theorem scanList_residue (w : List Byte) :
    (w.drop (scanList w).2).length ≤ 4 ∧ scanList (w.drop (scanList w).2) = ([], 0) := by
  have h : (w.drop (scanList w).2).length ≤ 4 := by
    have hb := scanList_bounds w
    simp only [List.length_drop]
    by_cases h5 : w.length < 5
    · omega
    · have := hb.2.2.1 (by omega); omega
  exact ⟨h, scanList_short (by omega)⟩

theorem scanList_minimal (w : List Byte) : ∀ p ∈ (scanList w).1, p.isMinimal = true := by
  induction w using scan_induction with
  | short w h => simp [scanList_short h]
  | frame s lo hi rest ih =>
    rw [scanList_frame]
    intro p hp
    rcases List.mem_cons.mp hp with rfl | hp
    · rfl
    · exact ih p hp
  | skip b w hl hno ih => rw [scanList_skip hl hno]; exact ih

/-- The scan of a longer window is the scan of the shorter one, resumed on what it left (the reason behind R143). -/
theorem scanList_append (w v : List Byte) :
    scanList (w ++ v) =
      ((scanList w).1 ++ (scanList (w.drop (scanList w).2 ++ v)).1,
        (scanList w).2 + (scanList (w.drop (scanList w).2 ++ v)).2) := by
  induction w using scan_induction with
  | short w h => simp [scanList_short h]
  | frame s lo hi rest ih =>
    have e : minHeader :: s :: lo :: hi :: minTrailer :: rest ++ v
        = minHeader :: s :: lo :: hi :: minTrailer :: (rest ++ v) := rfl
    have d : (minHeader :: s :: lo :: hi :: minTrailer :: rest).drop (5 + (scanList rest).2)
        = rest.drop (scanList rest).2 := by rw [Nat.add_comm]; rfl
    rw [e, scanList_frame, scanList_frame, ih]
    simp only [d, List.cons_append, Nat.add_assoc]
  | skip b w hl hno ih =>
    have hno' : ¬(b = minHeader ∧ (w ++ v)[3]? = some minTrailer) := by
      rw [List.getElem?_append_left (by omega)]; exact hno
    have d : (b :: w).drop (1 + (scanList w).2) = w.drop (scanList w).2 := by rw [Nat.add_comm]; rfl
    rw [List.cons_append, scanList_skip (by simp; omega) hno', scanList_skip hl hno, ih]
    simp only [d, Nat.add_assoc]

end Sys2Proof.Machine
end

