-- ==== Sys2Proof/Laws/Poll.lean ====
section
/-! SUPPORT. What one pass of POLL and one iteration of READ_LATEST can do (spec/42_poll_engine.md). -/

namespace Sys2Proof.Machine

/-! ## The appends of one pass -/

theorem Fifo.appendAll_cons (c : Nat) (f : Fifo) (b : Byte) (bs : List Byte) :
    f.appendAll c (b :: bs) = (f.append c b).appendAll c bs := rfl

/-- The head moves by one for each byte evicted (R111). -/
theorem Fifo.appendAll_head {c : Nat} (hc : 0 < c) (bs : List Byte) {f : Fifo} (hf : f.Inv c) :
    (f.appendAll c bs).head = (f.head + (f.cnt + bs.length - c)) % c := by
  induction bs generalizing f with
  | nil =>
    have h0 : f.cnt - c = 0 := by have := hf.cnt_le; omega
    simp [Fifo.appendAll, h0, Nat.mod_eq_of_lt hf.head_lt]
  | cons b bs ih =>
    rw [Fifo.appendAll_cons, ih (Fifo.append_inv hc hf b), Fifo.append_cnt]
    have hle := hf.cnt_le
    by_cases hfull : f.cnt = c
    · simp only [Fifo.append, hfull, if_true, List.length_cons, Nat.mod_add_mod]
      congr 1; omega
    · simp only [Fifo.append, hfull, if_false, List.length_cons]
      congr 2; omega

/-- Every cell but those the bytes go to reads as before (R111). -/
theorem Fifo.appendAll_kept {c : Nat} (hc : 0 < c) (bs : List Byte) {f : Fifo} (hf : f.Inv c) {a : Nat}
    (ha : ∀ j < bs.length, a ≠ (f.head + f.cnt + j) % c) :
    Memory.read (f.appendAll c bs).mem a = Memory.read f.mem a := by
  induction bs generalizing f with
  | nil => rfl
  | cons b bs ih =>
    have h0 := ha 0 (by simp)
    have hle := hf.cnt_le
    rw [Fifo.appendAll_cons, ih (Fifo.append_inv hc hf b)]
    · by_cases hfull : f.cnt = c
      · simp only [Fifo.append, hfull, if_true]
        refine Memory.read_write_other _ _ ?_
        simpa [hfull, Nat.mod_eq_of_lt hf.head_lt] using h0
      · simp only [Fifo.append, hfull, if_false, Fifo.place]
        exact Memory.read_write_other _ _ (by simpa using h0)
    · intro j hj
      have := ha (j + 1) (by simp; omega)
      by_cases hfull : f.cnt = c
      · simp only [Fifo.append, hfull, if_true]
        rw [Nat.add_assoc, Nat.mod_add_mod]
        intro h; apply this; rw [h, hfull]; congr 1; omega
      · simp only [Fifo.append, hfull, if_false]
        intro h; apply this; rw [h]; congr 1; omega

/-! ## One pass -/

/-- The scan of one pass is the scan of the last `C` of all the bytes (R150, R154). -/
theorem State.pollScan_eq {s : State} (hs : s.Inv) (bs : List Byte) :
    s.pollScan bs = scanWindow (lastOf s.cfg.capacity s.q bs) := by
  have hc : 0 < s.cfg.capacity := by have := hs.capacity; omega
  simp only [State.pollScan, State.polledFifo, Fifo.appendAll_toList hc bs hs.fifo, State.q]

theorem State.pollPackets_eq {s : State} (hs : s.Inv) (bs : List Byte) :
    s.pollPackets bs = (scanWindow (lastOf s.cfg.capacity s.q bs)).1 := by
  simp only [State.pollPackets, State.pollScan_eq hs]

theorem State.polledFifo_cnt {s : State} (hs : s.Inv) (bs : List Byte) :
    (s.polledFifo bs).cnt = (lastOf s.cfg.capacity s.q bs).length := by
  have hc : 0 < s.cfg.capacity := by have := hs.capacity; omega
  have h := Fifo.appendAll_toList hc bs hs.fifo
  have := congrArg List.length h
  simpa [State.polledFifo, State.q] using this

/-- A pass never drains more than is held (R150). -/
theorem State.pollScan_le {s : State} (hs : s.Inv) (bs : List Byte) : (s.pollScan bs).2 ≤ (s.polledFifo bs).cnt := by
  rw [State.pollScan_eq hs, State.polledFifo_cnt hs, scanWindow_eq]
  exact scanList_le _

/-- `Q` after one pass (R150). -/
theorem State.polled_q {s : State} (hs : s.Inv) (bs : List Byte) :
    (s.polled bs).q
      = (lastOf s.cfg.capacity s.q bs).drop (scanWindow (lastOf s.cfg.capacity s.q bs)).2 := by
  have hc : 0 < s.cfg.capacity := by have := hs.capacity; omega
  have h := Fifo.drain_toList s.cfg.capacity (s.polledFifo bs) (s.pollScan bs).2
  simp only [State.q, State.polled_fifo, State.polled_cfg]
  rw [h, ← State.q, ← State.pollScan_eq hs]
  congr 1
  exact Fifo.appendAll_toList hc bs hs.fifo

/-- After a pass at most four bytes are held (R153). -/
theorem State.polled_q_length {s : State} (hs : s.Inv) (bs : List Byte) : (s.polled bs).q.length ≤ 4 := by
  rw [State.polled_q hs, scanWindow_eq]
  exact (scanList_residue _).1

theorem State.polled_fifo_inv {s : State} (hs : s.Inv) (bs : List Byte) :
    (s.polled bs).fifo.Inv s.cfg.capacity := by
  have hc : 0 < s.cfg.capacity := by have := hs.capacity; omega
  exact Fifo.drain_inv hc (Fifo.appendAll_inv hc bs hs.fifo) (State.pollScan_le hs bs)

theorem newestOr_nil (l : Option Packet) : newestOr [] l = l := rfl

theorem newestOr_of_getLast {b : List Packet} {p : Packet} (h : b.getLast? = some p) (l : Option Packet) :
    newestOr b l = some p := by simp [newestOr, h]

theorem newestOr_append (a b : List Packet) (l : Option Packet) :
    newestOr (a ++ b) l = newestOr b (newestOr a l) := by
  unfold newestOr
  rw [List.getLast?_append]
  cases h : b.getLast? <;> simp

/-- The cache of one pass: the newest packet decoded, or what it was (R152). -/
theorem State.polled_last_cases (s : State) (bs : List Byte) :
    (s.pollPackets bs = [] ∧ (s.polled bs).last = s.last) ∨
      ∃ p, (s.pollPackets bs).getLast? = some p ∧ (s.polled bs).last = some p := by
  cases h : (s.pollPackets bs).getLast? with
  | none => exact .inl ⟨List.getLast?_eq_none_iff.mp h, by simp [newestOr, h]⟩
  | some p => exact .inr ⟨p, rfl, by simp [newestOr, h]⟩

/-- A pass keeps the invariant. -/
theorem State.polled_inv {s : State} (hs : s.Inv) (bs : List Byte) : (s.polled bs).Inv where
  capacity := hs.capacity
  chunkMax := hs.chunkMax
  fifo := State.polled_fifo_inv hs bs
  last := by
    intro p hp
    rcases State.polled_last_cases s bs with ⟨-, h⟩ | ⟨p', hp', h⟩
    · exact hs.last p (h ▸ hp)
    · rw [h] at hp
      cases hp
      have hm := List.mem_of_getLast? hp'
      rw [State.pollPackets_eq hs, scanWindow_eq] at hm
      exact scanList_minimal _ _ hm
  scan := hs.scan
  one := hs.one
  responses := hs.responses

/-! ## One iteration of READ_LATEST -/

/-- Everything the time check can do (R158). -/
theorem State.timeCheck_cases (s : State) :
    (s.expiredAnswer = true ∧
      s.timeCheck = (s.afterExpired.setWaiting false).respond
        (.reading (s.last.map fun p => { packet := p, fresh := false }))) ∨
    (s.expiredAnswer = false ∧ s.timeCheck = s.afterExpired.setWaiting true) := by
  unfold State.timeCheck
  cases s.expiredAnswer <;> simp

/-- Everything one iteration can do once the transport has answered (R158). -/
theorem State.latestAnswered_cases (a : ReadAnswer) (s : State) :
    (a = .fail ∧ State.latestAnswered a s = (s.setWaiting false).raise .transportReadFailure) ∨
    (∃ bs p, a = .data bs ∧ (s.pollPackets bs).getLast? = some p ∧
      State.latestAnswered a s
        = ((s.polled bs).setWaiting false).respond (.reading (some { packet := p, fresh := true }))) ∨
    (∃ bs, a = .data bs ∧ s.pollPackets bs = [] ∧ State.latestAnswered a s = (s.polled bs).timeCheck) := by
  cases a with
  | fail => exact .inl ⟨rfl, rfl⟩
  | data bs =>
    right
    cases h : (s.pollPackets bs).getLast? with
    | some p => exact .inl ⟨bs, p, rfl, h, by simp [State.latestAnswered, h]⟩
    | none => exact .inr ⟨bs, rfl, List.getLast?_eq_none_iff.mp h, by simp [State.latestAnswered, h]⟩

end Sys2Proof.Machine
end

