-- ==== Sys2Proof/Laws/Steps.lean ====
section
/-! SUPPORT. One step and runs of steps: what the machine takes next, what the invariant says of `Q` and which updates keep it,
and the stream-level step of a scan in progress. -/

namespace Sys2Proof.Machine

/-! ## Guards and small facts of the invariant -/

theorem State.scan_of_idle {s : State} (h : s.idle = true) : s.scan = none := ((State.idle_iff s).mp h).1

theorem State.waiting_of_idle {s : State} (h : s.idle = true) : s.waiting = false := ((State.idle_iff s).mp h).2

theorem State.Inv.capacity_pos {s : State} (h : s.Inv) : 0 < s.cfg.capacity := by have := h.capacity; omega

theorem State.Inv.q_length_le {s : State} (h : s.Inv) : s.q.length ≤ s.cfg.capacity := by
  rw [State.q_length]; exact h.fifo.cnt_le

/-- Every count up to `C` fits the `ceil(log2(C + 1))` bits of its port (R8). -/
theorem lt_countWidth {c n : Nat} (h : n ≤ c) : n < 2 ^ countWidth c := by
  have : c < 2 ^ (Nat.log2 c + 1) := Nat.lt_log2_self
  unfold countWidth; omega

theorem State.setFifo_inv {s : State} (hs : s.Inv) {f : Fifo} (hf : f.Inv s.cfg.capacity) : (s.setFifo f).Inv :=
  ⟨hs.capacity, hs.chunkMax, hf, hs.last, hs.scan, hs.one, hs.responses⟩

theorem State.respond_inv {s : State} (hs : s.Inv) {r : Response} (hr : ∀ p ∈ r.carried, p.isMinimal = true) :
    (s.respond r).Inv where
  capacity := hs.capacity
  chunkMax := hs.chunkMax
  fifo := hs.fifo
  last := hs.last
  scan := hs.scan
  one := hs.one
  responses := by
    intro a ha
    rcases List.mem_append.mp ha with ha | ha
    · exact hs.responses a ha
    · cases List.mem_singleton.mp ha; exact hr

theorem State.raise_inv {s : State} (hs : s.Inv) (e : Err) : (s.raise e).Inv :=
  State.respond_inv hs (by simp [Response.carried])

theorem State.setHost_inv {s : State} (hs : s.Inv) (h : List Request) : (s.setHost h).Inv :=
  ⟨hs.capacity, hs.chunkMax, hs.fifo, hs.last, hs.scan, hs.one, hs.responses⟩

theorem State.setScan_inv {s : State} (hs : s.Inv) {r : ScanRun} (hr : r.Inv s.cfg.capacity) (hw : s.waiting = false) :
    (s.setScan (some r)).Inv :=
  ⟨hs.capacity, hs.chunkMax, hs.fifo, hs.last, (by rintro _ ⟨⟩; exact hr), (by simp [hw]), hs.responses⟩

theorem State.closeScan_inv {s : State} (hs : s.Inv) {r : ScanRun} (hr : ∀ p ∈ r.out, p.isMinimal = true) :
    (s.closeScan r).Inv := by
  have hn : (s.setScan none).Inv :=
    ⟨hs.capacity, hs.chunkMax, hs.fifo, hs.last, by simp, by simp, hs.responses⟩
  exact State.respond_inv hn (r := .scanned r.out r.pc) hr

theorem State.afterRead_inv {s : State} (hs : s.Inv) : s.afterRead.Inv :=
  ⟨hs.capacity, hs.chunkMax, hs.fifo, hs.last, hs.scan, hs.one, hs.responses⟩

theorem State.afterExpired_inv {s : State} (hs : s.Inv) : s.afterExpired.Inv :=
  ⟨hs.capacity, hs.chunkMax, hs.fifo, hs.last, hs.scan, hs.one, hs.responses⟩

theorem State.afterWrite_inv {s : State} (hs : s.Inv) (bs : List Byte) : (s.afterWrite bs).Inv :=
  ⟨hs.capacity, hs.chunkMax, hs.fifo, hs.last, hs.scan, hs.one, hs.responses⟩

theorem State.setWaiting_inv {s : State} (hs : s.Inv) {w : Bool} (hw : w = true → s.scan = none) : (s.setWaiting w).Inv :=
  ⟨hs.capacity, hs.chunkMax, hs.fifo, hs.last, hs.scan, hw, hs.responses⟩

/-! ## One step and runs of steps -/

theorem State.fetch_of_idle {s : State} (h : s.idle = true) : s.fetch = s.nextMove := by
  simp [State.fetch, State.scan_of_idle h, State.waiting_of_idle h]

/-- The step that takes the host's next operation. -/
theorem step_op {s : State} {p : PortIn} {rest : List Request} {i : Instr} (hi : s.idle = true)
    (hh : s.host = .op p :: rest) (hd : decode s.cfg.capacity (.port p) = .ok i) :
    step s = exec i (s.setHost rest) := by
  simp [step, State.fetch_of_idle hi, State.nextMove, hh, State.runEncoded, hd]

/-- The step that is an iteration of READ_LATEST, its first or a later one (R158). -/
theorem step_of_readLatest {s : State} (h : s.AtReadLatest) : ∃ moves, step s = (s.setHost moves).latestIteration := by
  rcases h with h | ⟨hi, p, rest, hh, hp⟩
  · exact ⟨s.host, by simp [step, State.fetch, h]; rfl⟩
  · refine ⟨rest, ?_⟩
    rw [step_op (i := .readLatest) hi hh (by simp [decode, decodePort, hp])]
    exact State.whenIdle_of_idle (s := s.setHost rest) hi _

theorem run_zero (s : State) : run 0 s = .next s := rfl

theorem core_run_succ (M : Host.Core) (n : Nat) (s t : M.State) (h : M.step s = .next t) :
    M.run (n + 1) s = M.run n t := by simp only [Host.Core.run, h]

theorem core_run_succ_next (M : Host.Core) (n : Nat) (s t : M.State) (h : M.run (n + 1) s = .next t) :
    ∃ u, M.step s = .next u ∧ M.run n u = .next t := by
  simp only [Host.Core.run] at h
  cases hs : M.step s with
  | next u => rw [hs] at h; exact ⟨u, rfl, h⟩
  | fault r => rw [hs] at h; cases h
  | refused r => rw [hs] at h; cases h

theorem run_succ {s t : State} (n : Nat) (h : step s = .next t) : run (n + 1) s = run n t :=
  core_run_succ Sys2Proof.core n s t h

theorem run_one {s t : State} (h : step s = .next t) : run 1 s = .next t := run_succ 0 h

/-- A run that ends in a next state began with a step that has one. -/
theorem run_succ_next {s t : State} {n : Nat} (h : run (n + 1) s = .next t) :
    ∃ u, step s = .next u ∧ run n u = .next t := core_run_succ_next Sys2Proof.core n s t h

/-- A run that ends in a next state ran each of its parts. -/
theorem run_add {s t : State} (m n : Nat) (h : run (m + n) s = .next t) :
    ∃ u, run m s = .next u ∧ run n u = .next t := by
  induction m generalizing s with
  | zero => exact ⟨s, rfl, by simpa using h⟩
  | succ m ih =>
    rw [Nat.succ_add] at h
    obtain ⟨v, hv, h⟩ := run_succ_next h
    obtain ⟨u, h1, h2⟩ := ih h
    exact ⟨u, by rw [run_succ m hv]; exact h1, h2⟩

theorem run_append {s u t : State} (m n : Nat) (h1 : run m s = .next u) (h2 : run n u = .next t) :
    run (m + n) s = .next t := by
  induction m generalizing s with
  | zero => cases h1; simpa using h2
  | succ m ih =>
    obtain ⟨v, hv, h1⟩ := run_succ_next h1
    rw [Nat.succ_add, Nat.succ_eq_add_one, run_succ _ hv]
    exact ih h1

/-! ## A scan in progress -/

/-- All that one stream-level step does to a scan with five bytes or more remaining (R132, R133). -/
theorem ScanRun.step_cases {r : ScanRun} (h : ¬ r.remaining < 5) :
    (∃ a b c rest, r.ahead = minHeader :: a :: b :: c :: minTrailer :: rest ∧ r.step = r.frame a b c) ∨
    (∃ b w, r.ahead = b :: w ∧ 4 ≤ w.length ∧ ¬(b = minHeader ∧ w[3]? = some minTrailer) ∧ r.step = r.skip) := by
  have hal := r.ahead_length
  match ha : r.ahead with
  | [] => simp [ha] at hal; omega
  | b :: w =>
    have hl : 4 ≤ w.length := by simp [ha] at hal; omega
    by_cases hm : b = minHeader ∧ w[3]? = some minTrailer
    · match w with
      | [] | [_] | [_, _] | [_, _, _] => simp at hl
      | s1 :: lo :: hi :: b4 :: rest =>
        obtain ⟨rfl, h4⟩ := hm
        simp at h4; subst h4
        exact .inl ⟨_, _, _, _, rfl, ScanRun.step_frame ha⟩
    · exact .inr ⟨b, w, rfl, hl, hm, ScanRun.step_skip ha hl hm⟩

theorem ScanRun.step_window (r : ScanRun) : r.step.window = r.window := by
  unfold ScanRun.step; split <;> rfl

/-- The scan position moves by one or by five (R132, R133). -/
theorem ScanRun.step_pc {r : ScanRun} (h : ¬ r.remaining < 5) : r.pc < r.step.pc ∧ r.step.pc ≤ r.pc + 5 := by
  rcases ScanRun.step_cases h with ⟨_, _, _, _, -, e⟩ | ⟨_, _, -, -, -, e⟩ <;> rw [e] <;>
    simp [ScanRun.frame, ScanRun.skip]

/-- With five bytes or more remaining, the machine's step is the stream-level step at the scan position. -/
theorem step_of_scan {s : State} {r : ScanRun} (hw : s.waiting = false) (hs : s.scan = some r) (h : ¬ r.remaining < 5) :
    step s = .next (s.setScan (some r.step)) := by
  have e : step s = s.runEncoded (.stream r.ahead) := by simp [step, State.fetch, hw, hs, h]
  rcases ScanRun.step_cases h with ⟨a, b, c, rest, ha, e'⟩ | ⟨b, w, ha, hl, hm, e'⟩
  · rw [e, ha, e']
    simp [State.runEncoded, decode, decodeStream_frame, exec, execFrameMin, State.streamStep, hs, h]
  · obtain ⟨b1, b2, b3, b4, hd⟩ := decodeStream_skip hl hm
    rw [e, ha, e']
    simp [State.runEncoded, decode, hd, exec, execSkip, State.streamStep, hs, h]

/-- With fewer than five, the machine's step ends the scan (R134). -/
theorem step_of_scan_end {s : State} {r : ScanRun} (hw : s.waiting = false) (hs : s.scan = some r) (h : r.remaining < 5) :
    step s = .next (s.closeScan r) := by simp [step, State.fetch, hw, hs, h]

/-- The rest of the loop is the same one step later (R131). -/
theorem ScanRun.finish_of_step {r : ScanRun} (h : ¬ r.remaining < 5) : r.step.finish = r.finish := by
  have hp := ScanRun.step_pc h
  have hw := r.step_window
  unfold ScanRun.remaining at h
  have h1 := ScanRun.runTo_eq r.window.length r.step (by unfold ScanRun.remaining; rw [hw]; omega)
  have h2 := ScanRun.runTo_eq (r.window.length - 1) r.step (by unfold ScanRun.remaining; rw [hw]; omega)
  have e : r.runTo r.window.length (r.window.length - 1 + 1) = r.step.runTo r.window.length (r.window.length - 1) := by
    rw [ScanRun.runTo, if_pos]; unfold ScanRun.remaining; omega
  rw [show r.window.length - 1 + 1 = r.window.length by omega] at e
  rw [hw] at h1 h2
  unfold ScanRun.finish
  rw [hw, e, h1, h2]

/-- A stream-level step keeps the scan's invariant. -/
theorem ScanRun.step_inv {c : Nat} {r : ScanRun} (hr : r.Inv c) (h : ¬ r.remaining < 5) : r.step.Inv c := by
  have hpc := ScanRun.step_pc h
  have hwin := r.step_window
  unfold ScanRun.remaining at h
  rcases ScanRun.step_cases h with ⟨_, _, _, _, -, e⟩ | ⟨_, _, -, -, -, e⟩
  · refine ⟨by rw [hwin]; exact hr.window_le, by rw [hwin]; omega, ?_, ?_⟩
    · have := hr.out_le
      rw [e]; simp [ScanRun.frame]; omega
    · rw [e]
      intro p hp
      rcases List.mem_append.mp hp with hp | hp
      · exact hr.minimal p hp
      · cases List.mem_singleton.mp hp; rfl
  · refine ⟨by rw [hwin]; exact hr.window_le, by rw [hwin]; omega, ?_, ?_⟩
    · have := hr.out_le
      rw [e]; simp [ScanRun.skip]; omega
    · rw [e]; exact hr.minimal

/-- The bounded loop is some number of stream-level steps, and says why it stopped. -/
theorem ScanRun.runTo_iterate (limit n : Nat) (r : ScanRun) (hn : limit ≤ r.pc + n) :
    ∃ m, m ≤ n ∧ r.runTo limit n = ScanRun.step^[m] r ∧
      (limit ≤ (ScanRun.step^[m] r).pc ∨ (ScanRun.step^[m] r).remaining < 5) ∧
      ∀ k < m, (ScanRun.step^[k] r).pc < limit ∧ 5 ≤ (ScanRun.step^[k] r).remaining := by
  induction n generalizing r with
  | zero => exact ⟨0, le_rfl, rfl, .inl (by simpa using hn), by simp⟩
  | succ n ih =>
    by_cases hc : 5 ≤ r.remaining ∧ r.pc < limit
    · have hp := ScanRun.step_pc (r := r) (by omega)
      obtain ⟨m, h1, h2, h3, h4⟩ := ih r.step (by omega)
      refine ⟨m + 1, by omega, by rw [ScanRun.runTo, if_pos hc, h2]; rfl, h3, ?_⟩
      intro k hk
      cases k with
      | zero => exact ⟨hc.2, hc.1⟩
      | succ k => exact h4 k (by omega)
    · refine ⟨0, by omega, by rw [ScanRun.runTo, if_neg hc]; rfl, ?_, by simp⟩
      simp; omega

/-- A window without a header byte is skipped but for its last four bytes. -/
theorem scanList_no_header (w : List Byte) (h : ∀ b ∈ w, b ≠ minHeader) : scanList w = ([], w.length - 4) := by
  induction w with
  | nil => rfl
  | cons b w ih =>
    by_cases hl : 4 ≤ w.length
    · rw [scanList_skip hl (fun hb => h b (by simp) hb.1), ih (fun b hb => h b (by simp [hb]))]
      simp; omega
    · rw [scanList_short (by simp; omega)]; simp; omega

/-! ## What a step can do -/

theorem State.runEncoded_next {s t : State} {e : Encoded} (h : s.runEncoded e = .next t) :
    ∃ i, decode s.cfg.capacity e = .ok i ∧ exec i s = .next t := by
  unfold State.runEncoded at h
  split at h
  · exact ⟨_, ‹_›, h⟩
  · cases h

/-- Everything a step that answers a next state can have done: an iteration of a waiting READ_LATEST, the end of a scan, a
stream-level step of one, a host operation, a frame item, a reset, or nothing. -/
theorem step_cases {s t : State} (h : step s = .next t) :
    (s.waiting = true ∧ s.latestIteration = .next t) ∨
    (∃ r, s.waiting = false ∧ s.scan = some r ∧ r.remaining < 5 ∧ t = s.closeScan r) ∨
    (∃ r, s.waiting = false ∧ s.scan = some r ∧ ¬ r.remaining < 5 ∧ t = s.setScan (some r.step)) ∨
    (∃ p rest i, s.idle = true ∧ s.host = .op p :: rest ∧ decode s.cfg.capacity (.port p) = .ok i ∧
      exec i (s.setHost rest) = .next t) ∨
    (∃ bs rest i, s.idle = true ∧ s.host = .frame bs :: rest ∧ decode s.cfg.capacity (.frame bs) = .ok i ∧
      exec i (s.setHost rest) = .next t) ∨
    (∃ handle maxWait rest, s.idle = true ∧ s.host = .reset handle maxWait :: rest ∧
      t = (s.setHost rest).resetEvent handle maxWait) ∨
    (s.idle = true ∧ s.host = [] ∧ t = s) := by
  cases hw : s.waiting with
  | true => left; simp [step, State.fetch, hw] at h; exact ⟨rfl, h⟩
  | false =>
    right
    cases hs : s.scan with
    | some r =>
      by_cases h5 : r.remaining < 5
      · rw [step_of_scan_end hw hs h5] at h; cases h; exact .inl ⟨r, rfl, rfl, h5, rfl⟩
      · rw [step_of_scan hw hs h5] at h; cases h; exact .inr (.inl ⟨r, rfl, rfl, h5, rfl⟩)
    | none =>
      right; right
      have hi : s.idle = true := by simp [hw, hs]
      cases hh : s.host with
      | nil =>
        simp [step, State.fetch_of_idle hi, State.nextMove, hh] at h
        exact .inr (.inr (.inr ⟨hi, rfl, h.symm⟩))
      | cons r rest =>
        cases r with
        | op p =>
          simp [step, State.fetch_of_idle hi, State.nextMove, hh] at h
          obtain ⟨i, h1, h2⟩ := State.runEncoded_next h
          exact .inl ⟨p, rest, i, hi, rfl, h1, h2⟩
        | frame p =>
          simp [step, State.fetch_of_idle hi, State.nextMove, hh] at h
          obtain ⟨i, h1, h2⟩ := State.runEncoded_next h
          exact .inr (.inl ⟨p, rest, i, hi, rfl, h1, h2⟩)
        | reset a b =>
          simp [step, State.fetch_of_idle hi, State.nextMove, hh] at h
          exact .inr (.inr (.inl ⟨a, b, rest, hi, rfl, h.symm⟩))

end Sys2Proof.Machine
end

