-- ==== Sys2Proof/Tests/Slice0.lean ====
section
/-! SUPPORT. Tests, each on one small step with its expected result from spec/95_test_vectors.md or an encoding written out from
spec/30_encoding.md; the smoke test of WellFormed; and for each statement with hypotheses a witness that meets them. -/

namespace Sys2Proof.Tests

open Sys2Proof Sys2Proof.Machine

/-! ## Helpers -/

/-- The cells of a ring that holds `q` from cell `k` on. -/
def cells : Nat → List Byte → Memory
  | _, [] => []
  | k, b :: q => (k, b) :: cells (k + 1) q

/-- A block of capacity `c` with `CHUNK_MAX = 16`, `head = 0` and `Q = q`, nothing cached, nothing issued. -/
def block (c : Nat) (q : List Byte) : State :=
  { State.reset with
    cfg := { capacity := c, chunkMax := 16, maxWait := 0, retryDelay := 1, handle := 0 }
    fifo := { mem := cells 0 q, head := 0, cnt := q.length } }

/-- The block with the transport's next answers listed. -/
def reading (s : State) (rs : List ReadAnswer) (expired : List Bool) : State :=
  { s with env := { reads := rs, writes := [], expired := expired, draws := 0 } }

/-- The block with the host's next moves. -/
def given (s : State) (h : List Request) : State := { s with host := h }

/-- The block with a scan of `w` in progress at position `pc`. -/
def scanning (s : State) (w : List Byte) (pc : Nat) : State :=
  { s with scan := some { window := w, pc := pc, out := [] } }

/-- The state a step answers. -/
def after : Host.Outcome State Fault Refusal → Option State
  | .next s => some s
  | .fault _ | .refused _ => none

/-- The refusal a step answers. -/
def refusal : Host.Outcome State Fault Refusal → Option Refusal
  | .refused r => some r
  | .next _ | .fault _ => none

/-- The fault a step answers. -/
def fault : Host.Outcome State Fault Refusal → Option Fault
  | .fault r => some r
  | .next _ | .refused _ => none

/-- The ring of V2.1-4: capacity 8, ten bytes appended. -/
def wrapped : State :=
  { block 8 [] with
    fifo := { mem := cells 0 [0x09, 0x0A, 0x03, 0x04, 0x05, 0x06, 0x07, 0x08], head := 2, cnt := 8 } }

/-- `6E 02 05 00 62`, the frame of the source's example S5. -/
def s5 : List Byte := [0x6E, 0x02, 0x05, 0x00, 0x62]

/-! ## WellFormed refuses an ill-formed term of each kind -/

theorem test_refuses_countTooWide : Instr.check 1024 (.drain 2048) = some .countTooWide := by decide
theorem test_refuses_paramsTooLong (code : Half) (ps : List Byte) (h : ps.length = 65536) :
    Instr.check 1024 (.buildCommand code ps) = some .paramsTooLong := by simp [Instr.check, h]
theorem test_refuses_notReserved : Instr.check 1024 (.reserved9F 8) = some .notReserved := by decide
theorem test_refuses_skipOfFrame : Instr.check 1024 (.skip 0x6E 2 5 0 0x62) = some .skipOfFrame := by decide
theorem test_refuses_lengthFieldWraps (code : Half) (ps : List Byte) (h : ps.length = 65534) :
    Instr.check 1024 (.cmd code ps) = some .lengthFieldWraps := by simp [Instr.check, h]
theorem test_refuses_modeFrame : Instr.check 1024 (.cmd 0x007A [0, 0, 0, 1, 0, 0]) = some .modeFrame := by decide
theorem test_refuses_payloadTooLong (ps : List Byte) (h : ps.length = 65536) :
    Instr.check 1024 (.frameStd ps) = some .payloadTooLong := by simp [Instr.check, h]

/-! ## Words of the spec's encodings (R91, R80, R82 to R84; spec/opcode_table.json) -/

theorem test_decode_append : decode 1024 (.port { selectPort 0b0001 with din := 0x6E }) = .ok (.append 0x6E) := by rfl
theorem test_decode_drain : decode 1024 (.port { selectPort 0b0010 with n := 0x400 }) = .ok (.drain 1024) := by rfl
theorem test_decode_snapshot : decode 1024 (.port (selectPort 0b0011)) = .ok .snapshot := by rfl
theorem test_decode_scan : decode 1024 (.port (selectPort 0b0100)) = .ok .scan := by rfl
theorem test_decode_poll : decode 1024 (.port (selectPort 0b0101)) = .ok .poll := by rfl
theorem test_decode_readLatest : decode 1024 (.port (selectPort 0b0110)) = .ok .readLatest := by rfl
theorem test_decode_buildCommand :
    decode 1024 (.port { selectPort 0b0111 with code := 0x007A, plen := 2, params := [0xAA, 0xBB] })
      = .ok (.buildCommand 0x007A [0xAA, 0xBB]) := by rfl
theorem test_decode_sendMode : decode 1024 (.port { selectPort 0b1000 with mode := 1 }) = .ok (.sendMode .standard) := by rfl
theorem test_decode_reserved0 : decode 1024 (.port (selectPort 0b0000)) = .ok .reserved0 := by rfl
theorem test_decode_reserved9F : decode 1024 (.port (selectPort 0b1001)) = .ok (.reserved9F 9) := by rfl
theorem test_decode_frameMin : decode 1024 (.stream [0x6E, 0x03, 0x34, 0x12, 0x62]) = .ok (.frameMin 3 0x34 0x12) := by rfl
theorem test_decode_skip : decode 1024 (.stream [0x62, 0, 0, 0, 0x6E]) = .ok (.skip 0x62 0 0 0 0x6E) := by rfl
theorem test_decode_cmd :
    decode 1024 (.frame [0xFD, 0xFC, 0xFB, 0xFA, 0x02, 0x00, 0x7A, 0x01, 0x04, 0x03, 0x02, 0x01])
      = .ok (.cmd 0x017A []) := by rfl
theorem test_decode_cmdSetMin :
    decode 1024 (.frame [0xFD, 0xFC, 0xFB, 0xFA, 0x08, 0x00, 0x7A, 0x00, 0, 0, 0, 0, 0, 0, 0x04, 0x03, 0x02, 0x01])
      = .ok .cmdSetMin := by rfl
theorem test_decode_cmdSetStd :
    decode 1024 (.frame [0xFD, 0xFC, 0xFB, 0xFA, 0x08, 0x00, 0x7A, 0x00, 0, 0, 0, 1, 0, 0, 0x04, 0x03, 0x02, 0x01])
      = .ok .cmdSetStd := by rfl
theorem test_decode_frameStd :
    decode 1024 (.frame [0xF4, 0xF3, 0xF2, 0xF1, 0x01, 0x00, 0xAB, 0xF8, 0xF7, 0xF6, 0xF5]) = .ok (.frameStd [0xAB]) := by
  rfl
theorem test_reject_count : decode 1024 (.port { selectPort 2 with n := 2048 }) = .error .countTooWide := by rfl
theorem test_reject_params :
    decode 1024 (.port { selectPort 7 with plen := 2, params := [1] }) = .error .paramCount := by rfl
theorem test_reject_short : decode 1024 (.stream [0x6E, 0x02, 0x05, 0x00]) = .error .fewerThanFive := by rfl
theorem test_reject_header : decode 1024 (.frame [0xFD, 0xFC, 0xFB, 0xFB]) = .error .frameHeader := by rfl
theorem test_reject_length :
    decode 1024 (.frame [0xFD, 0xFC, 0xFB, 0xFA, 3, 0, 0x7A, 0x00, 4, 3, 2, 1]) = .error .frameLength := by rfl
theorem test_reject_trailer :
    decode 1024 (.frame [0xFD, 0xFC, 0xFB, 0xFA, 2, 0, 0x7A, 0x00, 4, 3, 2, 2]) = .error .frameTrailer := by rfl

/-- The table's own words, read back as their rows (`match` of spec/opcode_table.json; RESERVED.9_F at 9, because its
`match` 8 is SEND_MODE's by priority). -/
theorem test_table_words :
    [decodeTableWord 4 0x1, decodeTableWord 4 0x8, decodeTableWord 4 0x9, decodeTableWord 40 0x6E00000062,
      decodeTableWord 40 0, decodeTableWord 32 0xF4F3F2F1]
      = [some (.append 0), some (.sendMode .minimal), some (.reserved9F 9), some (.frameMin 0 0 0),
        some (.skip 0 0 0 0 0), some (.frameStd [])] := by decide

/-! ## One step each (the vector's number in spec/95_test_vectors.md) -/

/-- V2.1-3. -/
theorem test_append_full :
    (after (exec (.append 5) (block 4 [1, 2, 3, 4]))).map (fun t => (t.q, t.responses)) = some ([2, 3, 4, 5], [.done]) := by
  decide
/-- V2.1-8. -/
theorem test_append_ring :
    (after (exec (.append 0x11) { block 8 [] with fifo := { mem := [], head := 2, cnt := 0 } })).map State.fifo
      = some { mem := [(2, 0x11)], head := 2, cnt := 1 } := by decide
/-- V2.1-5. -/
theorem test_drain :
    (after (exec (.drain 3) wrapped)).map (fun t => (t.q, t.fifo.head, t.fifo.cnt)) = some ([6, 7, 8, 9, 10], 5, 5) := by
  decide
/-- V2.1-11. -/
theorem test_drain_range :
    (after (exec (.drain 1) (block 8 []))).map (fun t => (t.q, t.responses.map Response.status)) = some ([], [3]) := by
  decide
/-- V2.1-14. -/
theorem test_snapshot_wrapped :
    (after (exec .snapshot wrapped)).map State.responses = some [.window [3, 4, 5, 6, 7, 8, 9, 10]] := by decide
/-- V2.2-13. -/
theorem test_scan_false_match :
    (after (exec .scan (block 16 [0x6E, 0x03, 0x6E, 0x02, 0x62, 0x00, 0x62]))).map State.responses
      = some [.scanned [.minimal true 622] 5] := by decide
/-- V2.2-5. -/
theorem test_scan_resync :
    (after (exec .scan (block 16 [0x6E, 0x6E, 0x02, 0x05, 0x00, 0x62]))).map State.responses
      = some [.scanned [.minimal true 5] 6] := by decide
/-- V2.3-7: more bytes than `C` in one read. -/
theorem test_poll_tear :
    (after (exec .poll (reading (block 8 [])
      [.data [0x6E, 0x02, 0x05, 0x00, 0x62, 0x00, 0x00, 0x6E, 0x03, 0x09, 0x00, 0x62]] []))).map
        (fun t => (t.q, t.last, t.responses))
      = some ([], some (.minimal true 9), [.packets [.minimal true 9]]) := by decide
/-- V2.3-4. -/
theorem test_poll_fail :
    (after (exec .poll (reading { block 8 [0x6E, 0x03] with last := some (.minimal false 10) } [.fail] []))).map
        (fun t => (t.q, t.last, t.responses))
      = some ([0x6E, 0x03], some (.minimal false 10), [.err .transportReadFailure]) := by decide
/-- V2.3-11. -/
theorem test_readLatest_newest :
    (after (exec .readLatest (reading { block 16 [] with last := some (.minimal true 5) }
      [.data [0x6E, 0x01, 0x0A, 0x00, 0x62, 0x6E, 0x03, 0x07, 0x00, 0x62]] []))).map (fun t => (t.last, t.responses))
      = some (some (.minimal true 7), [.reading (some { packet := .minimal true 7, fresh := true })]) := by decide
/-- V2.3-10. -/
theorem test_readLatest_stale :
    (after (exec .readLatest (reading { block 16 [] with last := some (.minimal true 5) } [.data []] [true]))).map
        (fun t => (t.waiting, t.responses))
      = some (false, [.reading (some { packet := .minimal true 5, fresh := false })]) := by decide
/-- P7, line 2. -/
theorem test_buildCommand :
    (after (exec (.buildCommand 0x007A [0, 0, 0, 1, 0, 0]) (block 8 []))).map State.responses
      = some [.frame [0xFD, 0xFC, 0xFB, 0xFA, 0x08, 0x00, 0x7A, 0x00, 0, 0, 0, 1, 0, 0, 0x04, 0x03, 0x02, 0x01]] := by
  decide
/-- R170 for a code with two different bytes. -/
theorem test_cmd :
    (after (exec (.cmd 0x1234 [0xAB]) (block 8 []))).map State.responses
      = some [.frame [0xFD, 0xFC, 0xFB, 0xFA, 0x03, 0x00, 0x34, 0x12, 0xAB, 0x04, 0x03, 0x02, 0x01]] := by decide
/-- P7, line 5. -/
theorem test_sendMode_minimal :
    (after (exec (.sendMode .minimal) { block 8 [] with env := { State.reset.env with writes := [.done] } })).map
        (fun t => (t.handed, t.responses))
      = some ([[0xFD, 0xFC, 0xFB, 0xFA, 0x08, 0x00, 0x7A, 0x00, 0, 0, 0, 0, 0, 0, 0x04, 0x03, 0x02, 0x01]], [.done]) := by
  decide
/-- R187. -/
theorem test_sendMode_fails :
    (after (exec (.sendMode .standard) { block 8 [] with env := { State.reset.env with writes := [.fail] } })).map
        (fun t => t.responses.map Response.status) = some [2] := by decide
/-- R83's first frame, answered and not handed over (R199). -/
theorem test_cmdSetMin :
    (after (exec .cmdSetMin (block 8 []))).map (fun t => (t.responses, t.handed))
      = some ([.frame [0xFD, 0xFC, 0xFB, 0xFA, 0x08, 0x00, 0x7A, 0x00, 0, 0, 0, 0, 0, 0, 0x04, 0x03, 0x02, 0x01]], []) := by
  decide
/-- R83's second frame. -/
theorem test_cmdSetStd :
    (after (exec .cmdSetStd (block 8 []))).map (fun t => (t.responses, t.handed))
      = some ([.frame [0xFD, 0xFC, 0xFB, 0xFA, 0x08, 0x00, 0x7A, 0x00, 0, 0, 0, 1, 0, 0, 0x04, 0x03, 0x02, 0x01]], []) := by
  decide
/-- R189. -/
theorem test_reserved :
    ((after (exec .reserved0 (block 8 [1]))).map (fun t => (t.q, t.responses)),
      (after (exec (.reserved9F 15) (block 8 [1]))).map (fun t => t.responses.map Response.status))
      = (some ([1], [.err .illegalOp]), some [4]) := by decide
/-- V2.2-7 within a scan. -/
theorem test_frameMin :
    (after (step (scanning (block 8 []) [0x6E, 0x03, 0x34, 0x12, 0x62] 0))).map State.scan
      = some (some { window := [0x6E, 0x03, 0x34, 0x12, 0x62], pc := 5, out := [.minimal true 4660] }) := by decide
/-- V2.2-4 within a scan. -/
theorem test_skip :
    (after (step (scanning (block 8 []) [0x00, 0x6E, 0x02, 0x05, 0x00] 0))).map State.scan
      = some (some { window := [0x00, 0x6E, 0x02, 0x05, 0x00], pc := 1, out := [] }) := by decide
/-- V2.2-18. -/
theorem test_frameStd :
    (after (exec (.frameStd [0x6E, 0x00]) (block 16 []))).map State.responses = some [.scanned [] 8] := by decide
/-- V2.2-19: a false frame in the payload. -/
theorem test_frameStd_false_frame :
    (after (exec (.frameStd [0x6E, 0x01, 0x02, 0x03, 0x62]) (block 16 []))).map State.responses
      = some [.scanned [.minimal false 770] 11] := by decide
/-- R112, R131: of a frame of 15 bytes a block of capacity 8 scans the last 8, in which the false frame's header is lost. -/
theorem test_frameStd_longer_than_capacity :
    (after (exec (.frameStd [0x6E, 0x01, 0x02, 0x03, 0x62]) (block 8 []))).map State.responses
      = some [.scanned [] 4] := by decide
/-- R94: the records of V2.3-1 and V2.3-3. -/
theorem test_records : [(Packet.minimal true 5).record, (Packet.minimal false 100).record] = [0x1000005, 0x64] := by decide

/-- R220, R132, R198 and the decoder's rejections: the stops, each by its name. -/
theorem test_stops :
    refusal (exec .snapshot (scanning (block 8 []) s5 0)) = some .operationInProgress ∧
    refusal (exec (.frameMin 2 5 0) (scanning (block 8 []) s5 1)) = some .fewerThanFiveBytes ∧
    refusal (step (given (block 8 []) [.op { selectPort 2 with n := 16 }])) = some (.undecodable .countTooWide) ∧
    fault (exec .poll (reading (block 8 []) [.data (List.replicate 17 0)] [])) = some (.readAnswerTooLong 16 17) := by
  decide

/-! ## Witnesses: states and operands that meet the hypotheses of the statements -/

theorem inv_of {s : State} (h : 5 ≤ s.cfg.capacity) (hm : 1 ≤ s.cfg.chunkMax) (hh : s.fifo.head < s.cfg.capacity)
    (hc : s.fifo.cnt ≤ s.cfg.capacity) (hw : Memory.wf s.cfg.capacity s.fifo.mem = true)
    (hl : ∀ k < s.fifo.cnt, (Memory.read s.fifo.mem (s.fifo.place s.cfg.capacity k)).isSome = true)
    (hp : s.last.all Packet.isMinimal = true) (hs : s.scan = none) (hr : s.responses = []) : s.Inv where
  capacity := h
  chunkMax := hm
  fifo := ⟨hh, hc, hw, hl⟩
  last := by intro p e; simpa [e] using hp
  scan := by simp [hs]
  one := fun _ => hs
  responses := by simp [hr]

theorem inv_empty : (block 8 []).Inv :=
  inv_of (by decide) (by decide) (by decide) (by decide) (by decide) (by decide) (by decide) rfl rfl
theorem inv_full : (block 8 [1, 2, 3, 4, 5, 6, 7, 8]).Inv :=
  inv_of (by decide) (by decide) (by decide) (by decide) (by decide) (by decide) (by decide) rfl rfl
theorem inv_wrapped : wrapped.Inv :=
  inv_of (by decide) (by decide) (by decide) (by decide) (by decide) (by decide) (by decide) rfl rfl
theorem inv_s5 : (block 16 s5).Inv :=
  inv_of (by decide) (by decide) (by decide) (by decide) (by decide) (by decide) (by decide) rfl rfl

theorem inv_reading {s : State} (h : s.Inv) (rs : List ReadAnswer) (es : List Bool) : (reading s rs es).Inv :=
  ⟨h.capacity, h.chunkMax, h.fifo, h.last, h.scan, h.one, h.responses⟩
theorem inv_given {s : State} (h : s.Inv) (m : List Request) : (given s m).Inv :=
  ⟨h.capacity, h.chunkMax, h.fifo, h.last, h.scan, h.one, h.responses⟩
theorem inv_cached {s : State} (h : s.Inv) (p : Bool) (d : Half) : { s with last := some (.minimal p d) }.Inv :=
  ⟨h.capacity, h.chunkMax, h.fifo, by rintro _ ⟨⟩; rfl, h.scan, h.one, h.responses⟩
theorem inv_waiting {s : State} (h : s.Inv) (hs : s.scan = none) : { s with waiting := true }.Inv :=
  ⟨h.capacity, h.chunkMax, h.fifo, h.last, h.scan, fun _ => hs, h.responses⟩

/-- StepKeepsInvariant: an APPEND, and a stream-level step of a scan in progress. -/
theorem witness_StepKeepsInvariant :
    (given (block 8 []) [issueAppend 0x6E]).Inv ∧ (∃ t, step (given (block 8 []) [issueAppend 0x6E]) = .next t) ∧
    (scanning (block 8 []) s5 0).Inv ∧ (∃ t, step (scanning (block 8 []) s5 0) = .next t) :=
  ⟨inv_given inv_empty _, ⟨_, rfl⟩,
    ⟨by decide, by decide, inv_empty.fifo, inv_empty.last,
      by rintro _ ⟨⟩; exact ⟨by decide, by decide, by decide, by simp⟩, by decide, by simp [scanning, block, State.reset]⟩,
    ⟨_, rfl⟩⟩

theorem witness_ResetEventEmptiesFifoAndCache :
    (given (block 8 [1]) [.reset 7 9]).idle = true ∧ (given (block 8 [1]) [.reset 7 9]).host = .reset 7 9 :: [] := by decide

/-- StepRunsDecodedInstruction, clause by clause. -/
theorem witness_StepRunsDecodedInstruction :
    ((block 8 []).idle = true ∧ (given (block 8 []) [issueAppend 1]).host = .op { selectPort 1 with din := 1 } :: [] ∧
      decode 8 (.port { selectPort 1 with din := 1 }) = .ok (.append 1)) ∧
    ((given (block 8 []) [.frame setMinFrame]).idle = true ∧ decode 8 (.frame setMinFrame) = .ok .cmdSetMin) ∧
    ((scanning (block 8 []) s5 0).waiting = false ∧ 5 ≤ s5.length - 0 ∧
      decode 8 (.stream (s5.drop 0)) = .ok (.frameMin 2 5 0)) ∧
    ((block 8 []).idle = true ∧ (block 8 []).host = []) ∧
    ({ block 8 [] with waiting := true }.waiting = true ∧ { block 8 [] with waiting := true }.scan = none) :=
  ⟨⟨rfl, rfl, rfl⟩, ⟨rfl, rfl⟩, ⟨rfl, by decide, rfl⟩, ⟨rfl, rfl⟩, ⟨rfl, rfl⟩⟩

/-- OverlappingOperationsHaveNoStep: in a scan and in a wait; and a step of a scan that leaves the host's moves. -/
theorem witness_OverlappingOperationsHaveNoStep :
    (scanning (block 8 []) s5 0).idle = false ∧ { block 8 [] with waiting := true }.idle = false ∧
    decode 8 (.port (selectPort 3)) = .ok .snapshot ∧ (∃ t, step (scanning (block 8 []) s5 0) = .next t) :=
  ⟨rfl, rfl, rfl, ⟨_, rfl⟩⟩

/-- EveryOperationAnswersOnce: an operation that answers, and a READ_LATEST that goes on waiting. -/
theorem witness_EveryOperationAnswersOnce :
    (given (block 8 []) [issueAppend 1]).Inv ∧ (given (block 8 []) [issueAppend 1]).idle = true ∧
    (∃ t, step (given (block 8 []) [issueAppend 1]) = .next t) ∧
    (given (reading (block 8 []) [.data []] [false]) [.op (selectPort 6)]).Inv ∧
    (∃ t, step (given (reading (block 8 []) [.data []] [false]) [.op (selectPort 6)]) = .next t ∧ t.waiting = true) :=
  ⟨inv_given inv_empty _, rfl, ⟨_, rfl⟩, inv_given (inv_reading inv_empty _ _) _, _, rfl, by decide⟩

/-- DecodeEncodeRoundTrip at the ends of the operands' ranges. -/
theorem witness_DecodeEncodeRoundTrip :
    WellFormed 1024 (.append 0xFF) ∧ WellFormed 1024 (.drain 2047) ∧ WellFormed 1024 (.reserved9F 15) ∧
    WellFormed 1024 (.frameMin 0xFF 0xFF 0xFF) ∧ WellFormed 1024 (.skip 0x6E 0 0 0 0x63) ∧
    (∀ ps : List Byte, ps.length = 65535 → WellFormed 1024 (.buildCommand 0xFFFF ps)) ∧
    (∀ ps : List Byte, ps.length = 65533 → WellFormed 1024 (.cmd 0x1234 ps)) ∧
    (∀ ps : List Byte, ps.length = 65535 → WellFormed 1024 (.frameStd ps)) := by
  refine ⟨by decide, by decide, by decide, by decide, by decide, fun ps h => ?_, fun ps h => ?_, fun ps h => ?_⟩
  · simp [WellFormed, Instr.check, h]
  · have : (0x1234#16 = switchOutputCode) = False := by decide
    simp [WellFormed, Instr.check, h, this]
  · simp [WellFormed, Instr.check, h]

theorem witness_DecodedInstructionsAreWellFormed :
    decode 1024 (.frame [0xFD, 0xFC, 0xFB, 0xFA, 2, 0, 0x7A, 0x00, 4, 3, 2, 1]) = .ok (.cmd 0x007A []) := by rfl

theorem witness_StreamDecodeFollowsMaskAndMatch : ([0x6E, 2, 5, 0] : List Byte).length < 5 := by decide

/-- ResponseCountsFitTheirPorts: a full window, packets and a consumed count, the shortest frame, a standard frame longer than
`C` as a step, and the end of a scan in progress. -/
theorem witness_ResponseCountsFitTheirPorts :
    (block 8 [1, 2, 3, 4, 5, 6, 7, 8]).Inv ∧
    (∃ t, exec .snapshot (block 8 [1, 2, 3, 4, 5, 6, 7, 8]) = .next t ∧
      t.responses = [] ++ [.window [1, 2, 3, 4, 5, 6, 7, 8]]) ∧
    (block 16 s5).Inv ∧ (∃ t, exec .scan (block 16 s5) = .next t ∧ t.responses = [] ++ [.scanned [.minimal true 5] 5]) ∧
    (∃ t bs, exec (.buildCommand 0 []) (block 8 []) = .next t ∧ t.responses = [] ++ [.frame bs] ∧ bs.length = 12) ∧
    (∃ t, step (given (block 16 s5) [.frame (encodeStdFrame (List.replicate 7 0))]) = .next t ∧
      t.responses = [] ++ [.scanned [] 12]) ∧
    (∃ t, step (scanning (block 8 []) s5 5) = .next t ∧ t.responses = [] ++ [.scanned [] 5]) :=
  ⟨inv_full, ⟨_, rfl, by decide⟩, inv_s5, ⟨_, rfl, by decide⟩, ⟨_, _, rfl, rfl, rfl⟩, ⟨_, rfl, by decide⟩, _, rfl, by decide⟩

/-- AppendPutsByteAtTail, AppendOnTheRing: a FIFO with room, one byte short of full, and full. -/
theorem witness_AppendPutsByteAtTail :
    (block 8 []).Inv ∧ (block 8 []).idle = true ∧ (block 8 []).q.length ≠ 8 ∧
    wrapped.Inv ∧ wrapped.idle = true ∧ wrapped.q.length = wrapped.cfg.capacity ∧
    (block 8 [1, 2, 3, 4, 5, 6, 7]).q.length + 1 = 8 ∧ (selectPort 1).op = 1 :=
  ⟨inv_empty, by decide, by decide, inv_wrapped, by decide, by decide, by decide, rfl⟩

theorem witness_RepeatedAppendsKeepLastBytes :
    (given wrapped (appends [1, 2] ++ [])).Inv ∧ (given wrapped (appends [1, 2] ++ [])).idle = true ∧
    (given wrapped (appends [1, 2] ++ [])).host = appends [1, 2] ++ [] := ⟨inv_given inv_wrapped _, rfl, rfl⟩

/-- DrainRemovesFrontOrIsRefused: the port's largest operand, a drain of everything, one byte more than is held. -/
theorem witness_DrainRemovesFrontOrIsRefused :
    wrapped.idle = true ∧ 2047 < 2 ^ countWidth 1024 ∧ 8 ≤ wrapped.q.length ∧ wrapped.q.length < 9 ∧
    (block 8 []).idle = true ∧ 0 ≤ (block 8 []).q.length ∧ (block 8 []).q.length < 1 := by decide

theorem witness_SnapshotCopiesContent : wrapped.Inv ∧ wrapped.idle = true ∧ 7 < wrapped.fifo.cnt :=
  ⟨inv_wrapped, by decide, by decide⟩

theorem witness_SnapshotAndScanAreIdempotent : (block 16 s5).idle = true := by decide

/-- RingPositionIsUnobservable: the same `Q` at two places of the ring. -/
theorem witness_RingPositionIsUnobservable :
    wrapped.Inv ∧ (block 8 [3, 4, 5, 6, 7, 8, 9, 10]).Inv ∧ SameQ wrapped (block 8 [3, 4, 5, 6, 7, 8, 9, 10]) :=
  ⟨inv_wrapped,
    inv_of (by decide) (by decide) (by decide) (by decide) (by decide) (by decide) (by decide) rfl rfl,
    ⟨rfl, by decide, rfl, rfl, rfl, rfl, rfl, rfl, rfl⟩⟩

theorem witness_ScanReportsPacketsAndCount : (block 16 s5).idle = true ∧ (selectPort 4).op = 4 := by decide

/-- FrameMinDecodesAndAdvancesByFive: the frame at the end of the window and before more bytes. -/
theorem witness_FrameMinDecodesAndAdvancesByFive :
    s5.drop 0 = 0x6E :: 2 :: 5 :: 0 :: 0x62 :: [] ∧ (0xAA :: s5 ++ [1]).drop 1 = 0x6E :: 2 :: 5 :: 0 :: 0x62 :: [1] := by
  decide

/-- SkipPassesOverOneByte: a wrong header, and a header with a wrong trailer. -/
theorem witness_SkipPassesOverOneByte :
    (([0x6D, 2, 5, 0, 0x62] : List Byte).drop 0 = 0x6D :: 2 :: 5 :: 0 :: 0x62 :: [] ∧ (0x6D : Byte) ≠ 0x6E) ∧
    (([0x6E, 2, 5, 0, 0x63] : List Byte).drop 0 = 0x6E :: 2 :: 5 :: 0 :: 0x63 :: [] ∧ (0x63 : Byte) ≠ 0x62) := by decide

/-- StreamRowsNeedFiveBytes, ScanStopsBelowFiveBytes: four bytes remaining, and none. -/
theorem witness_ScanStopsBelowFiveBytes :
    (scanning (block 8 []) s5 1).waiting = false ∧
    (scanning (block 8 []) s5 1).scan = some { window := s5, pc := 1, out := [] } ∧ s5.length - 1 < 5 ∧
    s5.length - 5 < 5 := ⟨rfl, rfl, by decide, by decide⟩

theorem witness_StreamRowAloneIsScanOfItsBytes :
    (block 8 []).idle = true ∧ WellFormed 8 (.skip 0x6E 2 5 0 0x63) := by decide

theorem witness_SteppingTheScannerIsScan :
    (scanning (block 8 []) s5 0).waiting = false ∧
    (scanning (block 8 []) s5 0).scan = some { window := s5, pc := 0, out := [] } := ⟨rfl, rfl⟩

/-- ConsumedCountBounds: windows of four and of five bytes; a last pass that skips, and one that takes a frame. -/
theorem witness_ConsumedCountBounds :
    ([1, 2, 3, 4] : List Byte).length < 5 ∧ 5 ≤ s5.length ∧
    (5 ≤ ([1, 2, 3, 4, 5] : List Byte).length - 0 ∧
      (ScanRun.start [1, 2, 3, 4, 5]).step.window.length - (ScanRun.start [1, 2, 3, 4, 5]).step.pc < 5 ∧
      (ScanRun.start [1, 2, 3, 4, 5]).step = (ScanRun.start [1, 2, 3, 4, 5]).skip) ∧
    (5 ≤ s5.length - 0 ∧ (ScanRun.start s5).step.window.length - (ScanRun.start s5).step.pc < 5 ∧
      (ScanRun.start s5).step.pc = s5.length) := by decide

theorem witness_ShortWindowsYieldNothing : ([0x6E, 2, 5, 0] : List Byte).length ≤ 4 := by decide

theorem witness_PacketCountBound : s5.length ≤ 5 := by decide

theorem witness_ScannerResynchronisesAfterNoise : ∀ b ∈ ([0xFF, 0x62] : List Byte), b ≠ minHeader := by decide

/-- EvictionTearIsSkipped: program P4, eleven bytes appended to a FIFO of eight, which leaves `00 62` of the first frame. -/
theorem witness_EvictionTearIsSkipped :
    let bs : List Byte := s5 ++ [0x6E, 0x03, 0x07, 0x00, 0x62, 0x6E]
    (given (block 8 []) (appends bs ++ issueScan :: [])).Inv ∧ (given (block 8 []) (appends bs ++ issueScan :: [])).idle = true ∧
    lastOf 8 (block 8 []).q bs = [0x00, 0x62] ++ minimalFrame 3 7 0 ++ [0x6E] ∧
    (∀ b ∈ ([0x00, 0x62] : List Byte), b ≠ minHeader) :=
  ⟨inv_given inv_empty _, rfl, by decide, by decide⟩

/-- ChunkingDoesNotChangePackets: pieces that fill the FIFO to the last byte. -/
theorem witness_ChunkingDoesNotChangePackets :
    Fifo.Inv 5 Fifo.empty ∧ Fifo.empty.toList 5 = [] ∧ feedsWhole 5 Fifo.empty [[0xAA], [0x6E, 2, 5, 0], [0x62]] = true ∧
    feedsWhole 5 Fifo.empty [[0x6E], [2, 5, 0], [], [0x62, 0x6E]] = false ∧
    feedsWhole 5 Fifo.empty [[0x6E], [2, 5, 0], [], [0x62], s5] = true :=
  ⟨Fifo.empty_inv (by decide), by decide, by decide, by decide, by decide⟩

theorem witness_DrainedScanLeavesAtMostFourBytes :
    (given (block 16 s5) (scanDrain (block 16 s5).q ++ [])).Inv ∧
    (given (block 16 s5) (scanDrain (block 16 s5).q ++ [])).idle = true ∧
    (given (block 16 s5) (scanDrain (block 16 s5).q ++ [])).host = scanDrain (block 16 s5).q ++ [] :=
  ⟨inv_given inv_s5 _, rfl, rfl⟩

/-- StandardFrameIsNoise: a payload without a header byte, whose frame of 12 bytes is longer than `C` and exactly `C`;
V2.2-19's payload, which has one. -/
theorem witness_StandardFrameIsNoise :
    WellFormed 8 (.frameStd [0xAB, 0xCD]) ∧ (block 8 []).idle = true ∧
    WellFormed 12 (.frameStd [0xAB, 0xCD]) ∧ (block 12 []).idle = true ∧
    (∀ b ∈ le16Bytes (BitVec.ofNat 16 ([0xAB, 0xCD] : List Byte).length) ++ ([0xAB, 0xCD] : List Byte), b ≠ 0x6E) ∧
    WellFormed 8 (.frameStd [0x6E, 1, 2, 3, 0x62]) := by decide

theorem witness_StandardFrameGoesThroughStreamSteps :
    (scanning (block 16 []) (encodeStdFrame [1]) 0).scan = some { window := encodeStdFrame [1], pc := 0, out := [] } := rfl

/-- PollAppendsScansDrainsCaches: a failure, no bytes, and exactly `CHUNK_MAX` bytes. -/
theorem witness_PollAppendsScansDrainsCaches :
    (reading wrapped [.fail] []).Inv ∧ (reading wrapped [.fail] []).idle = true ∧ readSize .fail ≤ 16 ∧
    readSize (.data []) ≤ 16 ∧ readSize (.data (List.replicate 16 0)) ≤ (block 8 []).cfg.chunkMax :=
  ⟨inv_reading inv_wrapped _ _, rfl, by decide, by decide, by decide⟩

/-- PollAndReadLatestAlwaysAnswer: with an answer listed, and with none. -/
theorem witness_PollAndReadLatestAlwaysAnswer :
    (block 8 []).idle = true ∧ (block 8 []).ReadInContract ∧
    (reading (block 8 []) [.data (List.replicate 16 0)] []).ReadInContract :=
  ⟨rfl, rfl, by show State.readTooLong _ = false; decide⟩

/-- PollWithoutDataIsIdempotent, both clauses. -/
theorem witness_PollWithoutDataIsIdempotent :
    ((reading (block 16 []) [.data s5] []).Inv ∧
      ∃ t, exec .poll (reading (block 16 []) [.data s5] []) = .next t ∧ t.responses = [] ++ [.packets [.minimal true 5]]) ∧
    ((reading (block 8 [1, 2, 3, 4]) [.data []] []).Inv ∧ (reading (block 8 [1, 2, 3, 4]) [.data []] []).idle = true ∧
      (reading (block 8 [1, 2, 3, 4]) [.data []] []).q.length ≤ 4) :=
  ⟨⟨inv_of (by decide) (by decide) (by decide) (by decide) (by decide) (by decide) (by decide) rfl rfl,
      ⟨_, rfl, by decide⟩⟩,
    inv_of (by decide) (by decide) (by decide) (by decide) (by decide) (by decide) (by decide) rfl rfl, by decide, by decide⟩

/-- PollIsAppendsScanDrain: one byte read into a FIFO that holds four. -/
theorem witness_PollIsAppendsScanDrain :
    (block 8 [0x6E, 2, 5, 0]).Inv ∧ (block 8 [0x6E, 2, 5, 0]).idle = true ∧
    s5 = ((block 8 [0x6E, 2, 5, 0]).q ++ [0x62]).drop ((block 8 [0x6E, 2, 5, 0]).q.length + 1 - 8) ∧
    (∃ t, step { block 8 [0x6E, 2, 5, 0] with
        env := { (block 8 []).env with reads := .data [0x62] :: [] }, host := issuePoll :: [] } = .next t) ∧
    (∃ u, run (([0x62] : List Byte).length + 2) { block 8 [0x6E, 2, 5, 0] with
        host := appends [0x62] ++ scanDrain s5 ++ [] } = .next u) :=
  ⟨inv_of (by decide) (by decide) (by decide) (by decide) (by decide) (by decide) (by decide) rfl rfl, by decide, by decide,
    ⟨_, rfl⟩, ⟨_, rfl⟩⟩

/-- PolledStreamDecodesAsOneScan, with `CHUNK_MAX = C - 4`. -/
theorem witness_PolledStreamDecodesAsOneScan :
    let s := { reading (block 20 []) ([s5.take 2, s5.drop 2].map ReadAnswer.data ++ []) [] with
      host := List.replicate 2 issuePoll ++ [] }
    s.Inv ∧ s.idle = true ∧ s.q = [] ∧ s.cfg.chunkMax + 4 = s.cfg.capacity ∧
    (∀ p ∈ [s5.take 2, s5.drop 2], p.length ≤ s.cfg.chunkMax) ∧
    s.env.reads = [s5.take 2, s5.drop 2].map .data ++ [] ∧ s.host = List.replicate 2 issuePoll ++ [] := by
  refine ⟨inv_of ?_ ?_ ?_ ?_ ?_ ?_ ?_ rfl rfl, ?_, ?_, ?_, ?_, rfl, rfl⟩ <;> decide

/-- LastChangesOnlyByPollOrReset: a POLL that decodes, and a reset with a packet cached. -/
theorem witness_LastChangesOnlyByPollOrReset :
    ((given (reading (block 8 []) [.data s5] []) [issuePoll]).Inv ∧
      ∃ t, step (given (reading (block 8 []) [.data s5] []) [issuePoll]) = .next t ∧ t.last ≠ none) ∧
    ((given { block 8 [] with last := some (.minimal true 5) } [.reset 0 0]).Inv ∧
      ∃ t, step (given { block 8 [] with last := some (.minimal true 5) } [.reset 0 0]) = .next t ∧
        t.last ≠ some (.minimal true 5)) :=
  ⟨⟨inv_given (inv_reading inv_empty _ _) _, _, rfl, by decide⟩,
    ⟨inv_given (inv_cached inv_empty _ _) _, _, rfl, by decide⟩⟩

/-- OverlongReadAnswerHasNoStep: one byte more than `CHUNK_MAX`. -/
theorem witness_OverlongReadAnswerHasNoStep :
    (block 8 []).cfg.chunkMax < (List.replicate 17 (0 : Byte)).length ∧
    (reading (block 8 []) [.data (List.replicate 17 0)] []).idle = true := by decide

theorem witness_ReadLatestReturnsFreshNewest :
    (reading (block 8 []) [.data s5] []).Inv ∧ (reading (block 8 []) [.data s5] []).idle = true ∧ s5.length ≤ 16 ∧
    (scanWindow (lastOf 8 (block 8 []).q s5)).1.getLast? = some (.minimal true 5) :=
  ⟨inv_reading inv_empty _ _, rfl, by decide, by decide⟩

/-- ReadLatestFallsBackToCache, ReadLatestRetriesWithinBudget: nothing decoded, with nothing cached and with a packet. -/
theorem witness_ReadLatestFallsBackToCache :
    (reading (block 8 []) [.data [0x6E]] [true]).Inv ∧ (reading (block 8 []) [.data [0x6E]] [false]).Inv ∧
    (reading { block 8 [] with last := some (.minimal true 5) } [.data [0x6E]] [true]).Inv ∧
    (reading (block 8 []) [.data [0x6E]] [true]).idle = true ∧
    (scanWindow (lastOf 8 (block 8 []).q [0x6E])).1 = [] :=
  ⟨inv_reading inv_empty _ _, inv_reading inv_empty _ _, inv_reading (inv_cached inv_empty _ _) _ _, rfl, by decide⟩

/-- ReadLatestPropagatesFailure: in the first iteration, and in a later one. -/
theorem witness_ReadLatestPropagatesFailure :
    ((given (reading (block 8 []) [.fail] []) [.op (selectPort 6)]).scan = none ∧
      (given (reading (block 8 []) [.fail] []) [.op (selectPort 6)]).host = .op (selectPort 6) :: []) ∧
    ({ reading (block 8 []) [.fail] [] with waiting := true }.scan = none ∧
      { reading (block 8 []) [.fail] [] with waiting := true }.waiting = true) := ⟨⟨rfl, rfl⟩, rfl, rfl⟩

/-- ReadLatestEndsWhenBudgetIsUsedUp: from the wait with one retry, and from the issue with none. -/
theorem witness_ReadLatestEndsWhenBudgetIsUsedUp :
    { reading (block 8 []) [.data [], .data []] [false, true] with waiting := true }.Inv ∧
    { reading (block 8 []) [.data [], .data []] [false, true] with waiting := true }.AtReadLatest ∧
    (given (reading (block 8 []) [.data []] [true]) [.op (selectPort 6)]).Inv ∧
    (given (reading (block 8 []) [.data []] [true]) [.op (selectPort 6)]).AtReadLatest ∧
    [false, true] = List.replicate 1 false ++ true :: [] ∧ [true] = List.replicate 0 false ++ true :: [] ∧
    1 < [ReadAnswer.data [], .data []].length ∧ (∀ r ∈ [ReadAnswer.data [], .data []], readSize r ≤ 16) :=
  ⟨inv_waiting (inv_reading inv_empty _ _) rfl, .inl rfl, inv_given (inv_reading inv_empty _ _) _,
    .inr ⟨rfl, _, _, rfl, rfl⟩, rfl, rfl, by decide, by decide⟩

/-- FreshExactlyWhenDecodedDuringCall: a fresh Reading after one more wait, from the issue; a stale one, from the wait. -/
theorem witness_FreshExactlyWhenDecodedDuringCall :
    let s := given (reading (block 8 []) [.data [], .data s5] [false]) [.op (selectPort 6)]
    let o := { reading { block 8 [] with last := some (.minimal true 5) } [.data []] [true] with waiting := true }
    (s.Inv ∧ s.AtReadLatest ∧ (∀ m, 1 ≤ m → m ≤ 1 → ∃ v, run m s = .next v ∧ v.waiting = true) ∧
      ∃ u t, run 1 s = .next u ∧ step u = .next t ∧ t.waiting = false ∧
        t.responses = s.responses ++ [.reading (some { packet := .minimal true 5, fresh := true })]) ∧
    (o.Inv ∧ o.AtReadLatest ∧
      ∃ t, run 0 o = .next o ∧ step o = .next t ∧ t.waiting = false ∧
        t.responses = o.responses ++ [.reading (some { packet := .minimal true 5, fresh := false })]) := by
  refine ⟨⟨inv_given (inv_reading inv_empty _ _) _, .inr ⟨rfl, _, _, rfl, rfl⟩, ?_, _, _, rfl, rfl, by decide, by decide⟩,
    inv_waiting (inv_reading (inv_cached inv_empty _ _) _ _) rfl, .inl rfl, _, rfl, rfl, by decide, by decide⟩
  intro m h1 hm
  obtain rfl : m = 1 := by omega
  exact ⟨_, rfl, by decide⟩

/-- BuildCommandReturnsFrameOrLengthRange: no parameters, the most that fit, and one more. -/
theorem witness_BuildCommandReturnsFrameOrLengthRange :
    (block 8 []).idle = true ∧ ([] : List Byte).length ≤ 65533 ∧ (List.replicate 65533 (0 : Byte)).length ≤ 65533 ∧
    65533 < (List.replicate 65534 (0 : Byte)).length ∧ ([] : List Byte).length = (0 : Half).toNat :=
  ⟨rfl, by decide, by rw [List.length_replicate], by rw [List.length_replicate]; decide, rfl⟩

theorem witness_CommandFrameReadsBack :
    buildCommand 0x007A [] = .ok [0xFD, 0xFC, 0xFB, 0xFA, 0x02, 0x00, 0x7A, 0x00, 0x04, 0x03, 0x02, 0x01] := by rfl

/-- CmdRowEmitsItsFrame: each of the three rows. -/
theorem witness_CmdRowEmitsItsFrame :
    (block 8 []).idle = true ∧ WellFormed 8 (.cmd 0x007A [1]) ∧ WellFormed 8 .cmdSetMin ∧ WellFormed 8 .cmdSetStd := by decide

/-- SendModeHandsFrameToTransport: a `Done` and a `Fail` listed; each mode bit. -/
theorem witness_SendModeHandsFrameToTransport :
    { block 8 [] with env := { State.reset.env with writes := [.done] } }.idle = true ∧
    { block 8 [] with env := { State.reset.env with writes := [.fail] } }.env.writes = .fail :: [] ∧
    { selectPort 8 with mode := 0 }.mode = 0 ∧ { selectPort 8 with mode := 1 }.mode = 1 := by decide

theorem witness_SendModeAlwaysAnswers : (block 8 []).idle = true ∧ (block 8 []).env.writes = [] := by decide

theorem witness_OnlyModeFramesAreSent :
    ∃ t, step (given { block 8 [] with env := { State.reset.env with writes := [.done] } } [.op (selectPort 8)]) = .next t ∧
      t.handed = [] ++ [setMinFrame] := ⟨_, rfl, by decide⟩

/-- ReservedCodesAnswerIllegalOp: each clause, at codes 0, 9 and 15. -/
theorem witness_ReservedCodesAnswerIllegalOp :
    (given (block 8 []) [.op (selectPort 0)]).idle = true ∧ (selectPort 0).op = 0 ∧ 9 ≤ (selectPort 9).op.toNat ∧
    9 ≤ (selectPort 15).op.toNat := by decide

/-- ErrorsLeaveTheBlockUnchanged, both clauses. -/
theorem witness_ErrorsLeaveTheBlockUnchanged :
    ((block 8 []).idle = true ∧
      ∃ t, exec (.drain 1) (block 8 []) = .next t ∧ t.responses = [] ++ [.err (.drainRange 1 0)]) ∧
    (∃ t, step { reading (block 8 []) [.fail] [] with waiting := true } = .next t ∧
      t.responses = [] ++ [.err .transportReadFailure]) := ⟨⟨rfl, _, rfl, by decide⟩, _, rfl, by decide⟩

theorem witness_ParametersAreFixed :
    (∃ t, step (given (block 8 []) [.reset 7 9]) = .next t ∧ t.cfg.handle = 7) ∧
    (∃ t, step (given (block 8 []) [issueAppend 1]) = .next t) := ⟨⟨_, rfl, rfl⟩, _, rfl⟩

end Sys2Proof.Tests
end

section
/-! PROOF. The invariant, the responses and the step (spec/00_scope.md): what every instruction and every step can do when it
answers a next state, said once, and the statements that follow from it. -/

namespace Sys2Proof.Machine

/-! ## What a response carries -/

/-- A response a block of capacity `c` may give: Minimal packets only (R94), and every count within its range (R92). -/
structure Response.Sound (c : Nat) (a : Response) : Prop where
  minimal : ∀ p ∈ a.carried, p.isMinimal = true
  wlen : ∀ n, a.port.wlen = some n → n ≤ c
  consumed : ∀ k, a.port.consumed = some k → k ≤ c
  npkt : ∀ n, a.port.npkt = some n → n ≤ pktMax c
  flen : ∀ n, a.port.flen = some n → 12 ≤ n ∧ n ≤ 65545

namespace Response

theorem done_sound (c : Nat) : Response.done.Sound c := by constructor <;> simp [carried, port]

theorem err_sound (c : Nat) (e : Err) : (Response.err e).Sound c := by constructor <;> simp [carried, port]

theorem window_sound {c : Nat} {w : List Byte} (h : w.length ≤ c) : (Response.window w).Sound c := by
  constructor <;> simp [carried, port, h]

theorem frame_sound (c : Nat) {bs : List Byte} (h : 12 ≤ bs.length ∧ bs.length ≤ 65545) :
    (Response.frame bs).Sound c := by
  constructor <;> simp [carried, port, h]

theorem reading_sound (c : Nat) {r : Option Reading} (h : ∀ x, r = some x → x.packet.isMinimal = true) :
    (Response.reading r).Sound c := by
  cases r with
  | none => constructor <;> simp [carried, port]
  | some x => constructor <;> simp [carried, port, h x rfl]

end Response

/-- Five bytes a packet keep the packets of a scan within `PKT_MAX` (R141). -/
theorem ScanRun.Inv.out_length_le {c : Nat} {r : ScanRun} (h : r.Inv c) : r.out.length ≤ pktMax c := by
  have := h.window_le
  have := h.pc_le
  have := h.out_le
  unfold pktMax
  omega

theorem ScanRun.Inv.scanned_sound {c : Nat} {r : ScanRun} (h : r.Inv c) : (Response.scanned r.out r.pc).Sound c where
  minimal := h.minimal
  wlen := by simp [Response.port]
  consumed := by simpa [Response.port] using h.pc_le.trans h.window_le
  npkt := by simpa [Response.port] using h.out_length_le
  flen := by simp [Response.port]

theorem ScanRun.Inv.packets_sound {c : Nat} {r : ScanRun} (h : r.Inv c) : (Response.packets r.out).Sound c where
  minimal := h.minimal
  wlen := by simp [Response.port]
  consumed := by simp [Response.port]
  npkt := by simpa [Response.port] using h.out_length_le
  flen := by simp [Response.port]

/-- The end of a scan of at most `C` bytes (R131, R139). -/
theorem ScanRun.finish_start_inv {c : Nat} {w : List Byte} (h : w.length ≤ c) : (ScanRun.start w).finish.Inv c := by
  rw [ScanRun.finish_start]
  obtain ⟨hle, -, -, h5⟩ := scanList_bounds w
  exact ⟨h, hle, h5, scanList_minimal w⟩

/-- A frame BUILD_COMMAND emits has 12 bytes beside its parameters, of which there are at most 65533 (R170, R172). -/
theorem buildCommand_length {code : Half} {params bs : List Byte} (h : buildCommand code params = .ok bs) :
    12 ≤ bs.length ∧ bs.length ≤ 65545 := by
  unfold buildCommand at h
  split at h
  · cases h
  · rename_i hp
    cases h
    simp [commandFrame, maxParams] at hp ⊢
    omega

/-! ## What one instruction can do -/

/-- `t` comes from `s` with no response given, no host move taken and the capacity kept, and meets the invariant. -/
structure State.Quiet (s t : State) : Prop where
  inv : t.Inv
  capacity : t.cfg.capacity = s.cfg.capacity
  host : t.host = s.host
  responses : t.responses = s.responses

/-- `t` comes from `s` by the one response `a`, with no host move taken: the block is ready again (R6), and meets the
invariant. -/
structure State.Answers (s t : State) (a : Response) : Prop where
  inv : t.Inv
  idle : t.idle = true
  host : t.host = s.host
  responses : t.responses = s.responses ++ [a]
  sound : a.Sound s.cfg.capacity

/-- To answer is to give a sound response after quiet updates that leave no operation in progress. -/
theorem State.Quiet.respond {s u : State} (h : s.Quiet u) (hi : u.idle = true) {a : Response}
    (ha : a.Sound s.cfg.capacity) : s.Answers (u.respond a) a where
  inv := State.respond_inv h.inv ha.minimal
  idle := hi
  host := h.host
  responses := by rw [State.respond_responses, h.responses]
  sound := ha

theorem State.Quiet.refl {s : State} (hs : s.Inv) : s.Quiet s := ⟨hs, rfl, rfl, rfl⟩

section
variable {s t : State} (hs : s.Inv)
include hs

theorem execAppend_answers {b : Byte} (h : execAppend b s = .next t) : ∃ a, s.Answers t a := by
  obtain ⟨hi, ⟨⟩⟩ := State.whenIdle_next h
  have hq : s.Quiet (s.setFifo (s.fifo.append s.cfg.capacity b)) :=
    ⟨State.setFifo_inv hs (Fifo.append_inv hs.capacity_pos hs.fifo b), rfl, rfl, rfl⟩
  exact ⟨_, hq.respond hi (Response.done_sound _)⟩

theorem execDrain_answers {n : Nat} (h : execDrain n s = .next t) : ∃ a, s.Answers t a := by
  obtain ⟨hi, ⟨⟩⟩ := State.whenIdle_next h
  split
  · exact ⟨_, (State.Quiet.refl hs).respond hi (Response.err_sound _ _)⟩
  · rename_i hn
    have hq : s.Quiet (s.setFifo (s.fifo.drain s.cfg.capacity n)) :=
      ⟨State.setFifo_inv hs (Fifo.drain_inv hs.capacity_pos hs.fifo (by omega)), rfl, rfl, rfl⟩
    exact ⟨_, hq.respond hi (Response.done_sound _)⟩

theorem execSnapshot_answers (h : execSnapshot s = .next t) : ∃ a, s.Answers t a := by
  obtain ⟨hi, ⟨⟩⟩ := State.whenIdle_next h
  exact ⟨_, (State.Quiet.refl hs).respond hi (Response.window_sound hs.q_length_le)⟩

theorem execScan_answers (h : execScan s = .next t) : ∃ a, s.Answers t a := by
  obtain ⟨hi, ⟨⟩⟩ := State.whenIdle_next h
  exact ⟨_, (State.Quiet.refl hs).respond hi (ScanRun.finish_start_inv hs.q_length_le).scanned_sound⟩

theorem State.polled_quiet (bs : List Byte) : s.Quiet (s.afterRead.polled bs) :=
  ⟨State.polled_inv (State.afterRead_inv hs) bs, rfl, rfl, rfl⟩

/-- The scan of one pass of POLL is a scan of at most `C` bytes (R150, R154). -/
theorem State.pollScan_inv (bs : List Byte) :
    (ScanRun.start ((s.polledFifo bs).toList s.cfg.capacity)).finish.Inv s.cfg.capacity :=
  ScanRun.finish_start_inv
    ((Fifo.toList_length _ _).trans_le (Fifo.appendAll_inv hs.capacity_pos bs hs.fifo).cnt_le)

theorem execPoll_answers (h : execPoll s = .next t) : ∃ a, s.Answers t a := by
  obtain ⟨hi, h⟩ := State.whenIdle_next h
  obtain ⟨-, rfl⟩ := State.withRead_next h
  cases s.readAnswer with
  | fail =>
    have hq : s.Quiet s.afterRead := ⟨State.afterRead_inv hs, rfl, rfl, rfl⟩
    exact ⟨_, hq.respond hi (Response.err_sound _ _)⟩
  | data bs =>
    exact ⟨_, (State.polled_quiet hs bs).respond hi (State.pollScan_inv (State.afterRead_inv hs) bs).packets_sound⟩

/-- One iteration of READ_LATEST, the first or a later one: it answers, or it goes on waiting (R158). -/
theorem State.latestIteration_outcome (hscan : s.scan = none) (h : s.latestIteration = .next t) :
    (∃ a, s.Answers t a) ∨ (s.Quiet t ∧ t.waiting = true) := by
  obtain ⟨-, rfl⟩ := State.withRead_next h
  have hr := State.afterRead_inv hs
  rcases State.latestAnswered_cases s.readAnswer s.afterRead with
    ⟨-, e⟩ | ⟨bs, p, -, hp, e⟩ | ⟨bs, -, -, e⟩ <;> rw [e]
  · have hq : s.Quiet (s.afterRead.setWaiting false) := ⟨State.setWaiting_inv hr (by simp), rfl, rfl, rfl⟩
    exact .inl ⟨_, hq.respond (by simp [hscan]) (Response.err_sound _ _)⟩
  · have hq : s.Quiet ((s.afterRead.polled bs).setWaiting false) :=
      ⟨State.setWaiting_inv (State.polled_inv hr bs) (by simp), rfl, rfl, rfl⟩
    have hm : p.isMinimal = true := (State.pollScan_inv hr bs).minimal p (List.mem_of_getLast? hp)
    exact .inl ⟨_, hq.respond (by simp [hscan]) (Response.reading_sound _ (by rintro _ ⟨⟩; exact hm))⟩
  · have he := State.afterExpired_inv (State.polled_inv hr bs)
    rcases State.timeCheck_cases (s.afterRead.polled bs) with ⟨-, e⟩ | ⟨-, e⟩ <;> rw [e]
    · have hq : s.Quiet ((s.afterRead.polled bs).afterExpired.setWaiting false) :=
        ⟨State.setWaiting_inv he (by simp), rfl, rfl, rfl⟩
      refine .inl ⟨_, hq.respond (by simp [hscan]) (Response.reading_sound _ fun x hx => ?_)⟩
      obtain ⟨p, hp, rfl⟩ := Option.map_eq_some_iff.mp hx
      exact he.last p hp
    · exact .inr ⟨⟨State.setWaiting_inv he fun _ => hscan, rfl, rfl, rfl⟩, rfl⟩

theorem execReadLatest_outcome (h : execReadLatest s = .next t) :
    (∃ a, s.Answers t a) ∨ (s.Quiet t ∧ t.waiting = true) := by
  obtain ⟨hi, h⟩ := State.whenIdle_next h
  exact State.latestIteration_outcome hs (State.scan_of_idle hi) h

/-- BUILD_COMMAND, and the CMD row that is its output (R170). -/
theorem execBuildCommand_answers {code : Half} {params : List Byte} (h : execBuildCommand code params s = .next t) :
    ∃ a, s.Answers t a := by
  obtain ⟨hi, ⟨⟩⟩ := State.whenIdle_next h
  rcases State.respondOrRaise_cases s .frame (buildCommand code params) with ⟨bs, hb, e⟩ | ⟨_, -, e⟩ <;> rw [e]
  · exact ⟨_, (State.Quiet.refl hs).respond hi (Response.frame_sound _ (buildCommand_length hb))⟩
  · exact ⟨_, (State.Quiet.refl hs).respond hi (Response.err_sound _ _)⟩

theorem execSendMode_answers {mode : OutputMode} (h : execSendMode mode s = .next t) : ∃ a, s.Answers t a := by
  obtain ⟨hi, ⟨⟩⟩ := State.whenIdle_next h
  have hq : s.Quiet (s.afterWrite (modeFrame mode)) := ⟨State.afterWrite_inv hs _, rfl, rfl, rfl⟩
  rcases State.send_cases s (modeFrame mode) with ⟨-, e⟩ | ⟨-, e⟩ <;> rw [e]
  · exact ⟨_, hq.respond hi (Response.done_sound _)⟩
  · exact ⟨_, hq.respond hi (Response.err_sound _ _)⟩

theorem whenIdle_raise_answers {e : Err} (h : s.whenIdle (.next (s.raise e)) = .next t) : ∃ a, s.Answers t a := by
  obtain ⟨hi, ⟨⟩⟩ := State.whenIdle_next h
  exact ⟨_, (State.Quiet.refl hs).respond hi (Response.err_sound _ _)⟩

/-- The emission of a frame of at least 12 bytes: the rows of R83. -/
theorem whenIdle_frame_answers {bs : List Byte} (hb : 12 ≤ bs.length ∧ bs.length ≤ 65545)
    (h : s.whenIdle (.next (s.respond (.frame bs))) = .next t) : ∃ a, s.Answers t a := by
  obtain ⟨hi, ⟨⟩⟩ := State.whenIdle_next h
  exact ⟨_, (State.Quiet.refl hs).respond hi (Response.frame_sound _ hb)⟩

/-- The end of a scan, with no READ_LATEST waiting: the scan is the response (R134). -/
theorem State.closeScan_answers (hw : s.waiting = false) {r : ScanRun} (hr : r.Inv s.cfg.capacity) :
    s.Answers (s.closeScan r) (.scanned r.out r.pc) := by
  have hq : s.Quiet (s.setScan none) :=
    ⟨⟨hs.capacity, hs.chunkMax, hs.fifo, hs.last, by simp, by simp, hs.responses⟩, rfl, rfl, rfl⟩
  exact hq.respond (by simp [hw]) hr.scanned_sound

/-- A stream-level row of five bytes: one step of the scan in progress, or the scan of its own bytes (R130, R132, R133). -/
theorem State.streamStep_outcome {bytes : List Byte} {f : ScanRun → ScanRun}
    (hf : (f (ScanRun.start bytes)).Inv s.cfg.capacity) (h : s.streamStep bytes f = .next t) :
    (∃ a, s.Answers t a) ∨ (∃ r r', s.scan = some r ∧ t = s.setScan (some r')) := by
  unfold State.streamStep at h
  split at h
  · next r hr =>
    split at h
    · cases h
    · cases h; exact .inr ⟨r, _, hr, rfl⟩
  · obtain ⟨hi, ⟨⟩⟩ := State.whenIdle_next h
    exact .inl ⟨_, State.closeScan_answers hs (State.waiting_of_idle hi) hf⟩

theorem execFrameMin_outcome {state lo hi : Byte} (h : execFrameMin state lo hi s = .next t) :
    (∃ a, s.Answers t a) ∨ (∃ r r', s.scan = some r ∧ t = s.setScan (some r')) := by
  have hf : ((ScanRun.start [minHeader, state, lo, hi, minTrailer]).frame state lo hi).Inv s.cfg.capacity :=
    ⟨hs.capacity, le_rfl, le_rfl, by simp [ScanRun.frame, ScanRun.start, decodePacket, Packet.isMinimal]⟩
  exact State.streamStep_outcome hs hf h

theorem execSkip_outcome {b0 b1 b2 b3 b4 : Byte} (h : execSkip b0 b1 b2 b3 b4 s = .next t) :
    (∃ a, s.Answers t a) ∨ (∃ r r', s.scan = some r ∧ t = s.setScan (some r')) := by
  have hf : (ScanRun.start [b0, b1, b2, b3, b4]).skip.Inv s.cfg.capacity :=
    ⟨hs.capacity, by simp [ScanRun.skip, ScanRun.start], by simp [ScanRun.skip, ScanRun.start],
      by simp [ScanRun.skip, ScanRun.start]⟩
  exact State.streamStep_outcome hs hf h

theorem execFrameStd_outcome {payload : List Byte} (h : execFrameStd payload s = .next t) :
    (∃ a, s.Answers t a) ∨ (∃ r r', s.scan = some r ∧ t = s.setScan (some r')) := by
  unfold execFrameStd at h
  split at h
  · next r hr => cases h; exact .inr ⟨r, _, hr, rfl⟩
  · obtain ⟨hi, ⟨⟩⟩ := State.whenIdle_next h
    exact .inl ⟨_, State.closeScan_answers hs (State.waiting_of_idle hi)
      (ScanRun.finish_start_inv (lastOf_length (Nat.zero_le _)))⟩

/-- Everything an instruction that answers a next state can have done: answered, gone on waiting as READ_LATEST alone does,
or moved the scan in progress. -/
theorem exec_outcome {i : Instr} (h : exec i s = .next t) :
    (∃ a, s.Answers t a) ∨ (i = .readLatest ∧ s.Quiet t ∧ t.waiting = true) ∨
      (∃ r r', s.scan = some r ∧ t = s.setScan (some r')) := by
  cases i with
  | append b => exact .inl (execAppend_answers hs h)
  | drain n => exact .inl (execDrain_answers hs h)
  | snapshot => exact .inl (execSnapshot_answers hs h)
  | scan => exact .inl (execScan_answers hs h)
  | poll => exact .inl (execPoll_answers hs h)
  | readLatest => exact (execReadLatest_outcome hs h).imp_right fun hw => .inl ⟨rfl, hw⟩
  | buildCommand code params => exact .inl (execBuildCommand_answers hs h)
  | sendMode mode => exact .inl (execSendMode_answers hs h)
  | reserved0 => exact .inl (whenIdle_raise_answers hs h)
  | reserved9F op => exact .inl (whenIdle_raise_answers hs h)
  | frameMin state lo hi => exact (execFrameMin_outcome hs h).imp_right .inr
  | skip b0 b1 b2 b3 b4 => exact (execSkip_outcome hs h).imp_right .inr
  | cmd code params => exact .inl (execBuildCommand_answers hs h)
  | cmdSetMin => exact .inl (whenIdle_frame_answers hs (by decide) h)
  | cmdSetStd => exact .inl (whenIdle_frame_answers hs (by decide) h)
  | frameStd payload => exact (execFrameStd_outcome hs h).imp_right .inr

/-- With no operation in progress no scan is moved. -/
theorem exec_outcome_of_idle {i : Instr} (hi : s.idle = true) (h : exec i s = .next t) :
    (∃ a, s.Answers t a) ∨ (i = .readLatest ∧ s.Quiet t ∧ t.waiting = true) := by
  rcases exec_outcome hs h with ha | hw | ⟨r, -, hr, -⟩
  · exact .inl ha
  · exact .inr hw
  · rw [State.scan_of_idle hi] at hr; cases hr

/-- Everything a step that answers a next state can have done, seen from the state with the host's move taken: given one
response, or none. -/
theorem step_outcome (h : step s = .next t) :
    ∃ moves, (∃ a, (s.setHost moves).Answers t a) ∨ (s.setHost moves).Quiet t := by
  have of_exec {i : Instr} {rest : List Request} (hi : s.idle = true) (h : exec i (s.setHost rest) = .next t) :
      ∃ moves, (∃ a, (s.setHost moves).Answers t a) ∨ (s.setHost moves).Quiet t :=
    ⟨rest, (exec_outcome_of_idle (State.setHost_inv hs rest) hi h).imp_right fun hw => hw.2.1⟩
  rcases step_cases h with ⟨hw, h⟩ | ⟨r, hw, hr, -, rfl⟩ | ⟨r, hw, hr, h5, rfl⟩ | ⟨_, rest, i, hi, -, -, h⟩ |
    ⟨_, rest, i, hi, -, -, h⟩ | ⟨handle, maxWait, rest, -, -, rfl⟩ | ⟨-, -, rfl⟩
  · exact ⟨s.host, (State.latestIteration_outcome hs (hs.one hw) h).imp_right And.left⟩
  · exact ⟨s.host, .inl ⟨_, State.closeScan_answers hs hw (hs.scan r hr)⟩⟩
  · exact ⟨s.host, .inr ⟨State.setScan_inv hs (ScanRun.step_inv (hs.scan r hr) h5) hw, rfl, rfl, rfl⟩⟩
  · exact of_exec hi h
  · exact of_exec hi h
  · have he : ((s.setHost rest).resetEvent handle maxWait).Inv :=
      ⟨hs.capacity, hs.chunkMax, Fifo.empty_inv hs.capacity_pos, by simp, by simp, by simp, hs.responses⟩
    exact ⟨rest, .inr ⟨he, rfl, rfl, rfl⟩⟩
  · exact ⟨_, .inr (State.Quiet.refl hs)⟩

end

/-! ## The statements about the invariant and the responses -/

/-- Settles O3: a step answers or is quiet, and both keep the invariant. -/
theorem stepKeepsInvariant : Obligations.StepKeepsInvariant := by
  intro s t hs h
  obtain ⟨moves, ⟨a, ha⟩ | hq⟩ := step_outcome hs h
  · exact ha.inv
  · exact hq.inv

/-- Select code 6 alone is READ_LATEST (R91). -/
theorem op_of_decodePort_readLatest {c : Nat} {p : PortIn} (h : decodePort c p = .ok .readLatest) :
    p.op = 6 := by
  unfold decodePort at h
  split at h
  case h_7 hop => exact BitVec.eq_of_toNat_eq hop
  case h_3 => split at h <;> cases h
  case h_8 => split at h <;> cases h
  all_goals cases h

/-- The step that takes the host's operation runs what it decodes to. -/
theorem step_op_next {s t : State} {p : PortIn} {rest : List Request} (hi : s.idle = true) (hh : s.host = .op p :: rest)
    (h : step s = .next t) : ∃ i, decode s.cfg.capacity (.port p) = .ok i ∧ exec i (s.setHost rest) = .next t := by
  simp only [step, State.fetch_of_idle hi, State.nextMove, hh] at h
  exact State.runEncoded_next h

/-- Settles O7: what a step can do, and for an operation that is taken what its instruction can do. -/
theorem everyOperationAnswersOnce : Obligations.EveryOperationAnswersOnce := by
  intro s t hs h
  refine ⟨?_, fun p rest hi hh => ?_⟩
  · obtain ⟨moves, ⟨a, ha⟩ | hq⟩ := step_outcome hs h
    · exact .inr ⟨a, ha.responses, ha.idle⟩
    · exact .inl hq.responses
  · obtain ⟨i, hd, h⟩ := step_op_next hi hh h
    rcases exec_outcome_of_idle (State.setHost_inv hs rest) hi h with ⟨a, ha⟩ | ⟨rfl, hq, hw⟩
    · exact ⟨ha.host, .inl ⟨a, ha.responses, ha.idle⟩⟩
    · exact ⟨hq.host, .inr ⟨op_of_decodePort_readLatest hd, hw, hq.responses⟩⟩

/-- A sound response's counts fit the widths of their ports too (R8, R92). -/
theorem Response.Sound.counts_fit {c : Nat} {a : Response} (h : a.Sound c) :
    (∀ n, a.port.wlen = some n → n ≤ c ∧ n < 2 ^ countWidth c) ∧
    (∀ k, a.port.consumed = some k → k ≤ c ∧ k < 2 ^ countWidth c) ∧
    (∀ n, a.port.npkt = some n → n ≤ pktMax c ∧ n < 2 ^ countWidth (pktMax c)) ∧
    (∀ n, a.port.flen = some n → 12 ≤ n ∧ n ≤ 65545) :=
  ⟨fun n hn => ⟨h.wlen n hn, lt_countWidth (h.wlen n hn)⟩,
    fun k hk => ⟨h.consumed k hk, lt_countWidth (h.consumed k hk)⟩,
    fun n hn => ⟨h.npkt n hn, lt_countWidth (h.npkt n hn)⟩, h.flen⟩

/-- The response an instruction or a step answers is sound. -/
theorem response_sound {s t : State} {a : Response} (hs : s.Inv) (h : (∃ i, exec i s = .next t) ∨ step s = .next t)
    (ha : t.responses = s.responses ++ [a]) : a.Sound s.cfg.capacity := by
  have of_answers {moves : List Request} {b : Response} (hb : (s.setHost moves).Answers t b) :
      a.Sound s.cfg.capacity := by
    have := hb.responses.symm.trans ha
    simp at this
    exact this ▸ hb.sound
  have no_quiet (hq : t.responses = s.responses) : a.Sound s.cfg.capacity := by
    simp [ha] at hq
  rcases h with ⟨i, h⟩ | h
  · rcases exec_outcome hs h with ⟨b, hb⟩ | ⟨-, hq, -⟩ | ⟨r, r', -, rfl⟩
    · exact of_answers (moves := s.host) hb
    · exact no_quiet hq.responses
    · exact no_quiet rfl
  · obtain ⟨moves, ⟨b, hb⟩ | hq⟩ := step_outcome hs h
    · exact of_answers hb
    · exact no_quiet hq.responses

/-- Settles O14: the response is sound, and a count within its range fits its port. -/
theorem responseCountsFitTheirPorts : Obligations.ResponseCountsFitTheirPorts :=
  fun _ _ _ hs h ha => (response_sound hs h ha).counts_fit

/-- Settles O2: the parameters of R7, and an empty FIFO with nothing cached, running or answered. -/
theorem invariantHoldsAtReset : Obligations.InvariantHoldsAtReset where
  capacity := by decide
  chunkMax := Nat.le_add_left 1 _
  fifo := Fifo.empty_inv (by decide)
  last := by simp [State.reset]
  scan := by simp [State.reset]
  one := by simp [State.reset]
  responses := by simp [State.reset]

/-! ## The decoded instruction -/

/-- One iteration of READ_LATEST does not look at whether one is waiting. -/
theorem State.latestAnswered_setWaiting (a : ReadAnswer) (s : State) (w : Bool) :
    State.latestAnswered a (s.setWaiting w) = State.latestAnswered a s := by
  cases a with
  | fail => rfl
  | data bs =>
    have hp : (s.setWaiting w).pollPackets bs = s.pollPackets bs := rfl
    have ht : ((s.setWaiting w).polled bs).timeCheck = (s.polled bs).timeCheck := rfl
    simp only [State.latestAnswered, hp, ht]
    rfl

theorem State.latestIteration_setWaiting (s : State) (w : Bool) :
    (s.setWaiting w).latestIteration = s.latestIteration := by
  unfold State.latestIteration State.withRead
  have : (s.setWaiting w).afterRead = s.afterRead.setWaiting w := rfl
  rw [this, State.latestAnswered_setWaiting]
  rfl

/-- The step that takes a frame item (assumption 9). -/
theorem step_frame {s : State} {bs : List Byte} {rest : List Request} {i : Instr} (hi : s.idle = true)
    (hh : s.host = .frame bs :: rest) (hd : decode s.cfg.capacity (.frame bs) = .ok i) :
    step s = exec i (s.setHost rest) := by
  simp [step, State.fetch_of_idle hi, State.nextMove, hh, State.runEncoded, hd]

/-- The step that runs the stream-level instruction at the scan position (R89). -/
theorem step_stream {s : State} {r : ScanRun} {i : Instr} (hw : s.waiting = false) (hr : s.scan = some r)
    (h5 : ¬ r.remaining < 5) (hd : decode s.cfg.capacity (.stream r.ahead) = .ok i) : step s = exec i s := by
  simp [step, State.fetch, hw, hr, h5, State.runEncoded, hd]

/-- Nothing issued, nothing done (R34). -/
theorem step_of_host_nil {s : State} (hi : s.idle = true) (hh : s.host = []) : step s = .next s := by
  simp [step, State.fetch_of_idle hi, State.nextMove, hh]

/-- A waiting READ_LATEST goes on as if issued anew (R158). -/
theorem step_of_waiting {s : State} (hw : s.waiting = true) (hs : s.scan = none) :
    step s = exec .readLatest (s.setWaiting false) := by
  have hi : (s.setWaiting false).idle = true := by simp [hs]
  calc step s = s.latestIteration := by simp [step, State.fetch, hw]
    _ = (s.setWaiting false).latestIteration := (State.latestIteration_setWaiting s false).symm
    _ = exec .readLatest (s.setWaiting false) := (State.whenIdle_of_idle hi _).symm

/-- Settles O5, clause by clause. -/
theorem stepRunsDecodedInstruction : Obligations.StepRunsDecodedInstruction := by
  intro s i
  refine ⟨?_, ?_, ?_, step_of_host_nil, step_of_waiting⟩
  · exact fun _ _ hi hh hd => step_op hi hh hd
  · exact fun _ _ hi hh hd => step_frame hi hh hd
  · exact fun _ hw hr h5 hd => step_stream hw hr (Nat.not_lt.mpr h5) hd

end Sys2Proof.Machine
end

section
/-! PROOF. The block's own state (spec/10_state.md): reset and the reset event (R34, R216), the construction parameters (R29),
and the ring's position, which no step can observe (R20, R23, R32). -/

namespace Sys2Proof.Machine

/-! ## Reset -/

@[simp] theorem Fifo.empty_toList (c : Nat) : Fifo.empty.toList c = [] := rfl

/-- Settles O1: each field at the value R34 gives, and `CHUNK_MAX` a successor (R7). -/
theorem resetLeavesEmptyFifoAndNoPacket : Obligations.ResetLeavesEmptyFifoAndNoPacket :=
  ⟨Fifo.empty_toList _, rfl, rfl, rfl, rfl, rfl, rfl, Nat.le_add_left 1 _⟩

theorem State.nextMove_of_reset {s : State} {handle maxWait : Nat} {rest : List Request}
    (hh : s.host = .reset handle maxWait :: rest) : s.nextMove = .reset handle maxWait (s.setHost rest) := by
  simp [State.nextMove, hh]

/-- The step that takes the reset event (R215). -/
theorem step_of_host_reset {s : State} {handle maxWait : Nat} {rest : List Request} (hi : s.idle = true)
    (hh : s.host = .reset handle maxWait :: rest) :
    step s = .next ((s.setHost rest).resetEvent handle maxWait) := by
  simp [step, State.fetch_of_idle hi, State.nextMove_of_reset hh]

/-- Settles O4: the step is `resetEvent` with the host's move taken, read field by field. -/
theorem resetEventEmptiesFifoAndCache : Obligations.ResetEventEmptiesFifoAndCache := by
  intro s handle maxWait rest hi hh
  refine ⟨_, step_of_host_reset hi hh, Fifo.empty_toList _, ?_⟩
  simp [Fifo.empty]

/-! ## The construction parameters -/

@[simp] theorem State.respondOrRaise_cfg {α : Type} (s : State) (ok : α → Response) (x : Except Err α) :
    (s.respondOrRaise ok x).cfg = s.cfg := by
  rcases State.respondOrRaise_cases s ok x with ⟨_, -, e⟩ | ⟨_, -, e⟩ <;> simp [e]

@[simp] theorem State.send_cfg (s : State) (bs : List Byte) : (s.send bs).cfg = s.cfg := by
  rcases State.send_cases s bs with ⟨-, e⟩ | ⟨-, e⟩ <;> simp [e]

@[simp] theorem State.pollAnswered_cfg (a : ReadAnswer) (s : State) : (State.pollAnswered a s).cfg = s.cfg := by
  cases a <;> rfl

@[simp] theorem State.timeCheck_cfg (s : State) : s.timeCheck.cfg = s.cfg := by
  rcases State.timeCheck_cases s with ⟨-, e⟩ | ⟨-, e⟩ <;> simp [e]

@[simp] theorem State.latestAnswered_cfg (a : ReadAnswer) (s : State) : (State.latestAnswered a s).cfg = s.cfg := by
  rcases State.latestAnswered_cases a s with ⟨-, e⟩ | ⟨_, _, -, -, e⟩ | ⟨_, -, -, e⟩ <;> simp [e]

/-- An operation that draws a read answer keeps the parameters if what it does with the answer keeps them. -/
theorem State.withRead_keeps_cfg {s t : State} {k : ReadAnswer → State → State} (hk : ∀ a u, (k a u).cfg = u.cfg)
    (h : s.withRead k = .next t) : t.cfg = s.cfg := by
  obtain ⟨-, rfl⟩ := State.withRead_next h
  exact hk _ _

theorem State.whenIdle_keeps_cfg {s t u : State} (h : s.whenIdle (.next u) = .next t) (hu : u.cfg = s.cfg) :
    t.cfg = s.cfg := by
  obtain ⟨-, ⟨⟩⟩ := State.whenIdle_next h
  exact hu

theorem State.latestIteration_keeps_cfg {s t : State} (h : s.latestIteration = .next t) : t.cfg = s.cfg :=
  State.withRead_keeps_cfg State.latestAnswered_cfg h

theorem State.streamStep_keeps_cfg {s t : State} {bytes : List Byte} {f : ScanRun → ScanRun}
    (h : s.streamStep bytes f = .next t) : t.cfg = s.cfg := by
  unfold State.streamStep at h
  split at h
  · split at h
    · cases h
    · cases h; rfl
  · exact State.whenIdle_keeps_cfg h (State.closeScan_cfg _ _)

theorem execDrain_keeps_cfg {s t : State} {n : Nat} (h : execDrain n s = .next t) : t.cfg = s.cfg := by
  refine State.whenIdle_keeps_cfg h ?_
  split <;> rfl

theorem execFrameStd_keeps_cfg {s t : State} {payload : List Byte} (h : execFrameStd payload s = .next t) :
    t.cfg = s.cfg := by
  unfold execFrameStd at h
  split at h
  · cases h; rfl
  · exact State.whenIdle_keeps_cfg h (State.closeScan_cfg _ _)

/-- No instruction writes a construction parameter (R29). -/
theorem exec_keeps_cfg {i : Instr} {s t : State} (h : exec i s = .next t) : t.cfg = s.cfg := by
  cases i with
  | append b => exact State.whenIdle_keeps_cfg h rfl
  | drain n => exact execDrain_keeps_cfg h
  | snapshot => exact State.whenIdle_keeps_cfg h rfl
  | scan => exact State.whenIdle_keeps_cfg h rfl
  | poll => exact State.withRead_keeps_cfg State.pollAnswered_cfg (State.whenIdle_next h).2
  | readLatest => exact State.latestIteration_keeps_cfg (State.whenIdle_next h).2
  | buildCommand code params => exact State.whenIdle_keeps_cfg h (State.respondOrRaise_cfg _ _ _)
  | sendMode mode => exact State.whenIdle_keeps_cfg h (State.send_cfg _ _)
  | reserved0 => exact State.whenIdle_keeps_cfg h rfl
  | reserved9F op => exact State.whenIdle_keeps_cfg h rfl
  | frameMin state lo hi => exact State.streamStep_keeps_cfg h
  | skip b0 b1 b2 b3 b4 => exact State.streamStep_keeps_cfg h
  | cmd code params => exact State.whenIdle_keeps_cfg h (State.respondOrRaise_cfg _ _ _)
  | cmdSetMin => exact State.whenIdle_keeps_cfg h rfl
  | cmdSetStd => exact State.whenIdle_keeps_cfg h rfl
  | frameStd payload => exact execFrameStd_keeps_cfg h

/-- A step keeps every parameter, or it is the reset event (R29, R216). -/
theorem step_keeps_cfg_or_resets {s t : State} (h : step s = .next t) :
    t.cfg = s.cfg ∨ ∃ handle maxWait rest, s.fetch = .reset handle maxWait (s.setHost rest) ∧
      t = (s.setHost rest).resetEvent handle maxWait := by
  rcases step_cases h with ⟨-, h⟩ | ⟨_, -, -, -, rfl⟩ | ⟨_, -, -, -, rfl⟩ | ⟨_, _, _, -, -, -, h⟩ |
    ⟨_, _, _, -, -, -, h⟩ | ⟨handle, maxWait, rest, hi, hh, rfl⟩ | ⟨-, -, rfl⟩
  · exact .inl (State.latestIteration_keeps_cfg h)
  · exact .inl rfl
  · exact .inl rfl
  · exact .inl ((exec_keeps_cfg h).trans (State.setHost_cfg _ _))
  · exact .inl ((exec_keeps_cfg h).trans (State.setHost_cfg _ _))
  · exact .inr ⟨handle, maxWait, rest, (State.fetch_of_idle hi).trans (State.nextMove_of_reset hh), rfl⟩
  · exact .inl rfl

/-- Settles O60: a step keeps all five parameters, or is the reset event, which writes two of them. -/
theorem parametersAreFixed : Obligations.ParametersAreFixed := by
  intro s t h
  rcases step_keeps_cfg_or_resets h with e | ⟨handle, maxWait, rest, hf, rfl⟩
  · simp [e]
  · exact ⟨rfl, rfl, rfl, .inr ⟨handle, maxWait, _, hf⟩⟩

/-! ## The ring's position: the updates of the state

Every update, done to two states that differ only in how the ring holds `Q`, gives two such states again. -/

namespace SameQ

variable {s t : State} (h : SameQ s t)
include h

theorem respond (r : Response) : SameQ (s.respond r) (t.respond r) := { h with responses := by simp [h.responses] }

/-- A response that is a function of `Q`, as SNAPSHOT's and SCAN's are (R115, R140). -/
theorem respond_q (f : List Byte → Response) : SameQ (s.respond (f s.q)) (t.respond (f t.q)) := by
  rw [← h.q]
  exact h.respond _

theorem raise (e : Err) : SameQ (s.raise e) (t.raise e) := h.respond (.err e)

theorem setScan (r : Option ScanRun) : SameQ (s.setScan r) (t.setScan r) := { h with scan := rfl }

theorem closeScan (r : ScanRun) : SameQ (s.closeScan r) (t.closeScan r) := (h.setScan none).respond _

theorem setWaiting (w : Bool) : SameQ (s.setWaiting w) (t.setWaiting w) := { h with waiting := rfl }

theorem setHost (moves : List Request) : SameQ (s.setHost moves) (t.setHost moves) := { h with host := rfl }

theorem afterRead : SameQ s.afterRead t.afterRead := { h with env := congrArg Env.afterRead h.env }

theorem afterExpired : SameQ s.afterExpired t.afterExpired := { h with env := congrArg Env.afterExpired h.env }

theorem afterWrite (bs : List Byte) : SameQ (s.afterWrite bs) (t.afterWrite bs) :=
  { h with env := congrArg Env.afterWrite h.env, handed := by simp [h.handed] }

theorem resetEvent (handle maxWait : Nat) : SameQ (s.resetEvent handle maxWait) (t.resetEvent handle maxWait) :=
  { h with cfg := by simp [h.cfg], q := rfl, last := rfl, scan := rfl, waiting := rfl }

theorem respondOrRaise {α : Type} (ok : α → Response) (x : Except Err α) :
    SameQ (s.respondOrRaise ok x) (t.respondOrRaise ok x) := by
  cases x with
  | ok v => exact h.respond (ok v)
  | error e => exact h.raise e

theorem setFifo {f g : Fifo} (hq : f.toList s.cfg.capacity = g.toList t.cfg.capacity) :
    SameQ (s.setFifo f) (t.setFifo g) := { h with q := hq }

theorem cnt : s.fifo.cnt = t.fifo.cnt := by rw [← State.q_length, h.q, State.q_length]

theorem idle : s.idle = t.idle := by simp [State.idle, h.scan, h.waiting]

theorem writeAnswer : s.writeAnswer = t.writeAnswer := by simp [State.writeAnswer, h.env]

theorem send (bs : List Byte) : SameQ (s.send bs) (t.send bs) := by
  unfold State.send
  rw [← h.writeAnswer]
  cases s.writeAnswer with
  | done => exact (h.afterWrite bs).respond _
  | fail => exact (h.afterWrite bs).raise _

theorem timeCheck : SameQ s.timeCheck t.timeCheck := by
  have he : s.expiredAnswer = t.expiredAnswer := by simp [State.expiredAnswer, h.env]
  unfold State.timeCheck
  rw [← he, ← h.last]
  cases s.expiredAnswer with
  | true => exact (h.afterExpired.setWaiting false).respond _
  | false => exact h.afterExpired.setWaiting true

end SameQ

/-! ## The ring's position: the operations on `Q`

APPEND, DRAIN and the pass of POLL act on the ring, and their effect on `Q` is a function of `Q` alone. -/

/-- `Q` after one APPEND is a function of `Q` (R110). -/
theorem State.append_q {s : State} (hs : s.Inv) (b : Byte) :
    (s.fifo.append s.cfg.capacity b).toList s.cfg.capacity = lastOf s.cfg.capacity s.q [b] :=
  Fifo.appendAll_toList hs.capacity_pos [b] hs.fifo

section
variable {s t : State} (hs : s.Inv) (ht : t.Inv) (h : SameQ s t)

include h in
theorem SameQ.drain (n : Nat) :
    SameQ (s.setFifo (s.fifo.drain s.cfg.capacity n)) (t.setFifo (t.fifo.drain t.cfg.capacity n)) := by
  refine h.setFifo ?_
  rw [Fifo.drain_toList, Fifo.drain_toList]
  exact congrArg (List.drop n) h.q

include hs ht h

theorem SameQ.append (b : Byte) :
    SameQ (s.setFifo (s.fifo.append s.cfg.capacity b)) (t.setFifo (t.fifo.append t.cfg.capacity b)) := by
  refine h.setFifo ?_
  rw [State.append_q hs, State.append_q ht, h.q, h.cfg]

theorem SameQ.pollPackets (bs : List Byte) : s.pollPackets bs = t.pollPackets bs := by
  rw [State.pollPackets_eq hs, State.pollPackets_eq ht, h.q, h.cfg]

theorem SameQ.polled (bs : List Byte) : SameQ (s.polled bs) (t.polled bs) :=
  { h with
    q := by rw [State.polled_q hs, State.polled_q ht, h.q, h.cfg]
    last := by rw [State.polled_last, State.polled_last, h.pollPackets hs ht, h.last] }

theorem SameQ.pollAnswered (a : ReadAnswer) : SameQ (State.pollAnswered a s) (State.pollAnswered a t) := by
  cases a with
  | fail => exact h.raise _
  | data bs =>
    simp only [State.pollAnswered, ← h.pollPackets hs ht]
    exact (h.polled hs ht bs).respond _

theorem SameQ.latestAnswered (a : ReadAnswer) : SameQ (State.latestAnswered a s) (State.latestAnswered a t) := by
  cases a with
  | fail => exact (h.setWaiting false).raise _
  | data bs =>
    have hp := h.polled hs ht bs
    simp only [State.latestAnswered, ← h.pollPackets hs ht]
    cases (s.pollPackets bs).getLast? with
    | some p => exact (hp.setWaiting false).respond _
    | none => exact hp.timeCheck

end

/-! ## The ring's position: the outcomes -/

section
variable {s t : State} (h : SameQ s t)
include h

theorem SameQ.whenIdle {o o' : Host.Outcome State Fault Refusal} (ho : SameOutcome o o') :
    SameOutcome (s.whenIdle o) (t.whenIdle o') := by
  unfold State.whenIdle
  rw [← h.idle]
  cases s.idle with
  | true => exact ho
  | false => rfl

theorem SameQ.whenIdle_next {s' t' : State} (h' : SameQ s' t') :
    SameOutcome (s.whenIdle (.next s')) (t.whenIdle (.next t')) := h.whenIdle h'

/-- Both draw the same answer, so they stop alike, or go on alike with it. -/
theorem SameQ.withRead {k : ReadAnswer → State → State} (hk : ∀ a, SameQ (k a s.afterRead) (k a t.afterRead)) :
    SameOutcome (s.withRead k) (t.withRead k) := by
  have hlong : s.readTooLong = t.readTooLong := by simp [State.readTooLong, h.env, h.cfg]
  have hans : s.readAnswer = t.readAnswer := by simp [State.readAnswer, h.env, h.cfg]
  unfold State.withRead
  rw [← hlong, ← hans, ← h.cfg]
  cases s.readTooLong with
  | true => rfl
  | false => exact hk s.readAnswer

theorem SameQ.streamStep (bytes : List Byte) (f : ScanRun → ScanRun) :
    SameOutcome (s.streamStep bytes f) (t.streamStep bytes f) := by
  unfold State.streamStep
  rw [← h.scan]
  cases s.scan with
  | none => exact h.whenIdle_next (h.closeScan _)
  | some r =>
    by_cases h5 : r.remaining < 5
    · simp only [h5, if_true]; rfl
    · simp only [h5, if_false]; exact h.setScan _

theorem execDrain_sameOutcome (n : Nat) : SameOutcome (execDrain n s) (execDrain n t) := by
  refine h.whenIdle_next ?_
  rw [← h.cnt]
  split
  · exact h.raise _
  · exact (h.drain n).respond _

theorem execFrameStd_sameOutcome (payload : List Byte) :
    SameOutcome (execFrameStd payload s) (execFrameStd payload t) := by
  unfold execFrameStd
  rw [← h.scan, ← h.cfg]
  cases s.scan with
  | none => exact h.whenIdle_next (h.closeScan _)
  | some r => exact h.setScan _

/-- In a scan in progress both blocks take the same stream-level step, or end the scan (R131, R134). -/
theorem step_sameOutcome_of_scan {r : ScanRun} (hw : s.waiting = false) (hr : s.scan = some r) :
    SameOutcome (step s) (step t) := by
  have hw' : t.waiting = false := h.waiting ▸ hw
  have hr' : t.scan = some r := h.scan ▸ hr
  by_cases h5 : r.remaining < 5
  · rw [step_of_scan_end hw hr h5, step_of_scan_end hw' hr' h5]
    exact h.closeScan r
  · rw [step_of_scan hw hr h5, step_of_scan hw' hr' h5]
    exact h.setScan _

variable (hs : s.Inv) (ht : t.Inv)
include hs ht

/-- Every instruction has the same outcome wherever the ring stands (R32). -/
theorem exec_sameOutcome (i : Instr) : SameOutcome (exec i s) (exec i t) := by
  have hr := State.afterRead_inv hs
  have hr' := State.afterRead_inv ht
  cases i with
  | append b => exact h.whenIdle_next ((h.append hs ht b).respond _)
  | drain n => exact execDrain_sameOutcome h n
  | snapshot => exact h.whenIdle_next (h.respond_q .window)
  | scan => exact h.whenIdle_next (h.respond_q fun w => .scanned (scanWindow w).1 (scanWindow w).2)
  | poll => exact h.whenIdle (h.withRead (h.afterRead.pollAnswered hr hr'))
  | readLatest => exact h.whenIdle (h.withRead (h.afterRead.latestAnswered hr hr'))
  | buildCommand code params => exact h.whenIdle_next (h.respondOrRaise _ _)
  | sendMode mode => exact h.whenIdle_next (h.send _)
  | reserved0 => exact h.whenIdle_next (h.raise _)
  | reserved9F op => exact h.whenIdle_next (h.raise _)
  | frameMin state lo hi => exact h.streamStep _ _
  | skip b0 b1 b2 b3 b4 => exact h.streamStep _ _
  | cmd code params => exact h.whenIdle_next (h.respondOrRaise _ _)
  | cmdSetMin => exact h.whenIdle_next (h.respond _)
  | cmdSetStd => exact h.whenIdle_next (h.respond _)
  | frameStd payload => exact execFrameStd_sameOutcome h payload

/-- What is presented decodes alike, because the decoder sees `C` alone, and runs alike. -/
theorem SameQ.runEncoded (e : Encoded) : SameOutcome (s.runEncoded e) (t.runEncoded e) := by
  unfold State.runEncoded
  rw [← h.cfg]
  cases decode s.cfg.capacity e with
  | ok i => exact exec_sameOutcome h hs ht i
  | error r => rfl

/-- Between operations both blocks take the same move of the host. -/
theorem step_sameOutcome_of_idle (hi : s.idle = true) : SameOutcome (step s) (step t) := by
  have hi' : t.idle = true := h.idle ▸ hi
  unfold step
  rw [State.fetch_of_idle hi, State.fetch_of_idle hi']
  unfold State.nextMove
  rw [← h.host]
  match s.host with
  | [] => exact h
  | .op p :: rest => exact (h.setHost rest).runEncoded (State.setHost_inv hs rest) (State.setHost_inv ht rest) _
  | .frame bs :: rest =>
    exact (h.setHost rest).runEncoded (State.setHost_inv hs rest) (State.setHost_inv ht rest) _
  | .reset handle maxWait :: rest => exact (h.setHost rest).resetEvent handle maxWait

/-- A waiting READ_LATEST goes on alike in both blocks (R158). -/
theorem step_sameOutcome_of_waiting (hw : s.waiting = true) : SameOutcome (step s) (step t) := by
  have hw' : t.waiting = true := h.waiting ▸ hw
  rw [step_of_waiting hw (hs.one hw), step_of_waiting hw' (ht.one hw')]
  exact exec_sameOutcome (h.setWaiting false) (State.setWaiting_inv hs (by simp)) (State.setWaiting_inv ht (by simp)) _

end

/-- Settles O21: both blocks are waiting, in the same scan, or between operations, and each goes on alike. -/
theorem ringPositionIsUnobservable : Obligations.RingPositionIsUnobservable := by
  intro s t hs ht h
  cases hw : s.waiting with
  | true => exact step_sameOutcome_of_waiting h hs ht hw
  | false =>
    cases hr : s.scan with
    | some r => exact step_sameOutcome_of_scan h hw hr
    | none => exact step_sameOutcome_of_idle h hs ht (by simp [hw, hr])

end Sys2Proof.Machine
end

section
/-! PROOF. The read-only operations SNAPSHOT and SCAN (spec/40_fifo_ops.md, spec/41_scanner.md), the scan run step by step
(R131), and what reaches the transport (spec/60_exceptions.md R199). -/

namespace Sys2Proof.Machine

/-! ## The scan run step by step -/

/-- The whole loop does nothing to a scan with fewer than five bytes remaining (R134). -/
theorem ScanRun.finish_of_end {r : ScanRun} (h : r.remaining < 5) : r.finish = r := ScanRun.runTo_stop _ _ h

/-- Each stream-level step leaves fewer bytes remaining, so the loop ends (R131). -/
theorem ScanRun.step_remaining_lt {r : ScanRun} (h : ¬ r.remaining < 5) : r.step.remaining < r.remaining := by
  obtain ⟨hpc, -⟩ := ScanRun.step_pc h
  unfold ScanRun.remaining at h ⊢
  rw [r.step_window]
  omega

/-- A scan in progress, wherever it stands, is run to the end of its loop by at most one step a remaining byte and one more
to answer (R131, R134). -/
theorem run_finishes_scan {s : State} {r : ScanRun} (hw : s.waiting = false) (hr : s.scan = some r) :
    ∃ n ≤ r.remaining + 1, run n s = .next (s.closeScan r.finish) := by
  induction hm : r.remaining using Nat.strong_induction_on generalizing s r with
  | _ m ih =>
    by_cases h5 : r.remaining < 5
    · refine ⟨1, by omega, ?_⟩
      rw [ScanRun.finish_of_end h5]
      exact run_one (step_of_scan_end hw hr h5)
    · have hlt := ScanRun.step_remaining_lt h5
      obtain ⟨n, hn, hrun⟩ := ih r.step.remaining (hm ▸ hlt) (s := s.setScan (some r.step)) hw rfl rfl
      refine ⟨n + 1, by omega, ?_⟩
      rw [run_succ n (step_of_scan hw hr h5), hrun, ScanRun.finish_of_step h5]
      rfl

/-- Settles O28: the run of a scan that stands at the start of its window. -/
theorem steppingTheScannerIsScan : Obligations.SteppingTheScannerIsScan := by
  intro s w hw hr
  obtain ⟨n, hn, hrun⟩ := run_finishes_scan hw hr
  exact ⟨n, _, hn, hrun, rfl, rfl, rfl, rfl, rfl, hw, ⟨rfl, rfl, rfl⟩⟩

/-! ## What reaches the transport -/

/-- A guarded update keeps what its update keeps. -/
theorem State.whenIdle_keeps {α : Type} (f : State → α) {s t u : State} (h : s.whenIdle (.next u) = .next t)
    (hu : f u = f s) : f t = f s := by
  obtain ⟨-, ⟨⟩⟩ := State.whenIdle_next h
  exact hu

@[simp] theorem State.respondOrRaise_handed {α : Type} (s : State) (ok : α → Response) (x : Except Err α) :
    (s.respondOrRaise ok x).handed = s.handed := by
  rcases State.respondOrRaise_cases s ok x with ⟨_, -, e⟩ | ⟨_, -, e⟩ <;> simp [e]

/-- A write hands its bytes over once, whatever the transport answers (R199). -/
@[simp] theorem State.send_handed (s : State) (bs : List Byte) : (s.send bs).handed = s.handed ++ [bs] := by
  rcases State.send_cases s bs with ⟨-, e⟩ | ⟨-, e⟩ <;> simp [e]

@[simp] theorem State.pollAnswered_handed (a : ReadAnswer) (s : State) :
    (State.pollAnswered a s).handed = s.handed := by
  cases a <;> rfl

@[simp] theorem State.timeCheck_handed (s : State) : s.timeCheck.handed = s.handed := by
  rcases State.timeCheck_cases s with ⟨-, e⟩ | ⟨-, e⟩ <;> simp [e]

@[simp] theorem State.latestAnswered_handed (a : ReadAnswer) (s : State) :
    (State.latestAnswered a s).handed = s.handed := by
  rcases State.latestAnswered_cases a s with ⟨-, e⟩ | ⟨_, _, -, -, e⟩ | ⟨_, -, -, e⟩ <;> simp [e]

theorem execPoll_handed {s t : State} (h : execPoll s = .next t) : t.handed = s.handed := by
  obtain ⟨-, h⟩ := State.whenIdle_next h
  obtain ⟨-, rfl⟩ := State.withRead_next h
  exact State.pollAnswered_handed _ _

theorem State.latestIteration_handed {s t : State} (h : s.latestIteration = .next t) : t.handed = s.handed := by
  obtain ⟨-, rfl⟩ := State.withRead_next h
  exact State.latestAnswered_handed _ _

theorem execDrain_handed {s t : State} {n : Nat} (h : execDrain n s = .next t) : t.handed = s.handed := by
  refine State.whenIdle_keeps State.handed h ?_
  split <;> rfl

theorem State.streamStep_handed {s t : State} {bytes : List Byte} {f : ScanRun → ScanRun}
    (h : s.streamStep bytes f = .next t) : t.handed = s.handed := by
  unfold State.streamStep at h
  split at h
  · split at h
    · cases h
    · cases h; rfl
  · exact State.whenIdle_keeps State.handed h (State.closeScan_handed _ _)

theorem execFrameStd_handed {s t : State} {payload : List Byte} (h : execFrameStd payload s = .next t) :
    t.handed = s.handed := by
  unfold execFrameStd at h
  split at h
  · cases h; rfl
  · exact State.whenIdle_keeps State.handed h (State.closeScan_handed _ _)

theorem execSendMode_handed {s t : State} {m : OutputMode} (h : execSendMode m s = .next t) :
    t.handed = s.handed ++ [modeFrame m] := by
  obtain ⟨-, ⟨⟩⟩ := State.whenIdle_next h
  exact State.send_handed _ _

/-- SEND_MODE hands its frame over, and no other instruction hands anything over (R199). -/
theorem exec_handed {i : Instr} {s t : State} (h : exec i s = .next t) :
    t.handed = s.handed ∨ ∃ m, i = .sendMode m ∧ t.handed = s.handed ++ [modeFrame m] := by
  cases i with
  | append b => exact .inl (State.whenIdle_keeps State.handed h rfl)
  | drain n => exact .inl (execDrain_handed h)
  | snapshot => exact .inl (State.whenIdle_keeps State.handed h rfl)
  | scan => exact .inl (State.whenIdle_keeps State.handed h rfl)
  | poll => exact .inl (execPoll_handed h)
  | readLatest => exact .inl (State.latestIteration_handed (State.whenIdle_next h).2)
  | buildCommand code params => exact .inl (State.whenIdle_keeps State.handed h (State.respondOrRaise_handed _ _ _))
  | sendMode m => exact .inr ⟨m, rfl, execSendMode_handed h⟩
  | reserved0 => exact .inl (State.whenIdle_keeps State.handed h rfl)
  | reserved9F op => exact .inl (State.whenIdle_keeps State.handed h rfl)
  | frameMin state lo hi => exact .inl (State.streamStep_handed h)
  | skip b0 b1 b2 b3 b4 => exact .inl (State.streamStep_handed h)
  | cmd code params => exact .inl (State.whenIdle_keeps State.handed h (State.respondOrRaise_handed _ _ _))
  | cmdSetMin => exact .inl (State.whenIdle_keeps State.handed h rfl)
  | cmdSetStd => exact .inl (State.whenIdle_keeps State.handed h rfl)
  | frameStd payload => exact .inl (execFrameStd_handed h)

/-- Select code 8 alone is SEND_MODE (R91). -/
theorem op_of_decodePort_sendMode {c : Nat} {p : PortIn} {m : OutputMode} (h : decodePort c p = .ok (.sendMode m)) :
    p.op = 8 := by
  unfold decodePort at h
  split at h
  case h_9 hop => exact BitVec.eq_of_toNat_eq hop
  case h_3 => split at h <;> cases h
  case h_8 => split at h <;> cases h
  all_goals cases h

/-- No frame of the table is SEND_MODE: it is an operation of the port (R91). -/
theorem decodeFrame_ne_sendMode (bs : List Byte) (m : OutputMode) : decodeFrame bs ≠ .ok (.sendMode m) := by
  unfold decodeFrame decodeCmdFrame decodeStdFrame
  split_ifs <;> simp

/-- SEND_MODE's frame is the one R83 lists for the mode. -/
@[simp] theorem modeFrame_minimal : modeFrame .minimal = setMinFrame := by decide

@[simp] theorem modeFrame_standard : modeFrame .standard = setStdFrame := by decide

/-- A step hands nothing over, or it took a SEND_MODE of the host and handed that mode's frame over (R199). -/
theorem step_handed {s t : State} (h : step s = .next t) :
    t.handed = s.handed ∨ ∃ p rest m, s.fetch = .instr (.port p) (s.setHost rest) ∧
      decode s.cfg.capacity (.port p) = .ok (.sendMode m) ∧ t.handed = s.handed ++ [modeFrame m] := by
  rcases step_cases h with ⟨-, h⟩ | ⟨_, -, -, -, rfl⟩ | ⟨_, -, -, -, rfl⟩ | ⟨p, rest, i, hi, hh, hd, h⟩ |
    ⟨bs, rest, i, -, -, hd, h⟩ | ⟨_, _, _, -, -, rfl⟩ | ⟨-, -, rfl⟩
  · exact .inl (State.latestIteration_handed h)
  · exact .inl rfl
  · exact .inl rfl
  · rcases exec_handed h with e | ⟨m, rfl, e⟩
    · exact .inl e
    · have hf : s.fetch = .instr (.port p) (s.setHost rest) := by
        simp [State.fetch_of_idle hi, State.nextMove, hh]
      exact .inr ⟨p, rest, m, hf, hd, e⟩
  · rcases exec_handed h with e | ⟨m, rfl, -⟩
    · exact .inl e
    · exact absurd hd (decodeFrame_ne_sendMode bs m)
  · exact .inl rfl
  · exact .inl rfl

/-- Settles O57: what a step hands over, with the select code and the frame of the mode written out. -/
theorem onlyModeFramesAreSent : Obligations.OnlyModeFramesAreSent := by
  intro s t h
  rcases step_handed h with e | ⟨p, rest, m, hf, hd, e⟩
  · exact .inl e
  · refine .inr ⟨p, _, m, hf, op_of_decodePort_sendMode hd, hd, ?_⟩
    cases m with
    | minimal => rw [e, modeFrame_minimal]
    | standard => rw [e, modeFrame_standard]

/-! ## Reading twice -/

/-- An operation that only answers, with a response that is a function of `Q`, answers the same when it is issued again. -/
theorem whenIdle_respond_q_twice {s : State} (hi : s.idle = true) (f : List Byte → Response) :
    ∃ t u a, s.whenIdle (.next (s.respond (f s.q))) = .next t ∧ t.whenIdle (.next (t.respond (f t.q))) = .next u ∧
      t.responses = s.responses ++ [a] ∧ u.responses = s.responses ++ [a, a] ∧ SameBlock s t ∧ SameBlock t u := by
  refine ⟨s.respond (f s.q), (s.respond (f s.q)).respond (f s.q), f s.q, State.whenIdle_of_idle hi _,
    State.whenIdle_of_idle (s := s.respond (f s.q)) hi _, rfl, ?_, ⟨rfl, rfl, rfl, rfl, rfl⟩, ⟨rfl, rfl, rfl, rfl, rfl⟩⟩
  simp

/-- Settles O20: the responses of SNAPSHOT and of SCAN are functions of `Q`, and neither writes anything else. -/
theorem snapshotAndScanAreIdempotent : Obligations.SnapshotAndScanAreIdempotent := by
  rintro s i (rfl | rfl) hi
  · exact whenIdle_respond_q_twice hi .window
  · exact whenIdle_respond_q_twice hi fun w => .scanned (scanWindow w).1 (scanWindow w).2

end Sys2Proof.Machine
end

section
/-! PROOF. The encoding (spec/30_encoding.md): the round trip, what the decoder accepts, the stream-level mask and
match, the record of a packet, and the frame rows. -/

namespace Sys2Proof.Machine

/-! ## Decode of encode -/

/-- Settles O8: the round trip of each row. -/
theorem decodeEncodeRoundTrip : Obligations.DecodeEncodeRoundTrip := by
  intro c i
  cases i with
  | append b => exact Laws.RoundTrip.append b c
  | drain n => exact Laws.RoundTrip.drain n c
  | snapshot => exact Laws.RoundTrip.snapshot c
  | scan => exact Laws.RoundTrip.scan c
  | poll => exact Laws.RoundTrip.poll c
  | readLatest => exact Laws.RoundTrip.readLatest c
  | buildCommand code params => exact Laws.RoundTrip.buildCommand code params c
  | sendMode m => exact Laws.RoundTrip.sendMode m c
  | reserved0 => exact Laws.RoundTrip.reserved0 c
  | reserved9F op => exact Laws.RoundTrip.reserved9F op c
  | frameMin state lo hi => exact Laws.RoundTrip.frameMin state lo hi c
  | skip b0 b1 b2 b3 b4 => exact Laws.RoundTrip.skip b0 b1 b2 b3 b4 c
  | cmd code params => exact Laws.RoundTrip.cmd code params c
  | cmdSetMin => exact Laws.RoundTrip.cmdSetMin c
  | cmdSetStd => exact Laws.RoundTrip.cmdSetStd c
  | frameStd payload => exact Laws.RoundTrip.frameStd payload c

/-! ## What the decoder accepts -/

section
variable {c : Nat}

theorem wellFormed_drain_iff {n : Nat} : WellFormed c (.drain n) ↔ n < 2 ^ countWidth c := by
  simp [WellFormed, Instr.check]

theorem wellFormed_buildCommand_iff {code : Half} {params : List Byte} :
    WellFormed c (.buildCommand code params) ↔ params.length < 65536 := by
  simp [WellFormed, Instr.check]

theorem wellFormed_reserved9F_iff {op : BitVec 4} : WellFormed c (.reserved9F op) ↔ 9 ≤ op.toNat := by
  simp [WellFormed, Instr.check]

theorem wellFormed_skip_iff {b0 b1 b2 b3 b4 : Byte} :
    WellFormed c (.skip b0 b1 b2 b3 b4) ↔ ¬(b0 = minHeader ∧ b4 = minTrailer) := by
  simp [WellFormed, Instr.check]

theorem wellFormed_frameStd_iff {payload : List Byte} : WellFormed c (.frameStd payload) ↔ payload.length < 65536 := by
  simp [WellFormed, Instr.check]

/-- A CMD is well formed when its length field does not wrap (R172) and its frame is none of R83's. -/
theorem wellFormed_cmd_iff {code : Half} {params : List Byte} :
    WellFormed c (.cmd code params) ↔ params.length ≤ 65533 ∧ encodeCmdFrame code params ≠ setMinFrame ∧
      encodeCmdFrame code params ≠ setStdFrame := by
  have inj (m : OutputMode) : encodeCmdFrame code params = encodeCmdFrame switchOutputCode (modeParams m) ↔
      code = switchOutputCode ∧ params = modeParams m :=
    ⟨encodeCmdFrame_inj, fun ⟨hc, hp⟩ => by rw [hc, hp]⟩
  rw [setMinFrame_eq, setStdFrame_eq, Ne, Ne, inj, inj]
  simp only [WellFormed, Instr.check]
  split_ifs with hl hm
  · exact iff_of_false (by simp) (by omega)
  · exact iff_of_false (by simp) (by tauto)
  · exact iff_of_true rfl ⟨by omega, by tauto⟩

end

theorem frameLengthField_lt (bs : List Byte) : frameLengthField bs < 65536 := BitVec.isLt _

theorem decodePort_wellFormed {c : Nat} {p : PortIn} {i : Instr} (h : decodePort c p = .ok i) : WellFormed c i := by
  unfold decodePort at h
  split at h
  case h_3 =>
    split at h
    next hn => cases h; exact wellFormed_drain_iff.mpr hn
    next => cases h
  case h_8 =>
    split at h
    next hl => cases h; exact wellFormed_buildCommand_iff.mpr (hl ▸ p.plen.isLt)
    next => cases h
  case h_10 =>
    cases h
    refine wellFormed_reserved9F_iff.mpr ?_
    simp only [imp_false] at *
    omega
  all_goals cases h; rfl

theorem decodeStream_wellFormed {c : Nat} {bs : List Byte} {i : Instr} (h : decodeStream bs = .ok i) :
    WellFormed c i := by
  unfold decodeStream at h
  split at h
  · split at h
    next => cases h; rfl
    next hno => cases h; exact wellFormed_skip_iff.mpr hno
  · cases h

/-- What the decoder reads as a CMD is that command's frame, with parameters its length field can count (R82, R87). -/
theorem decodeCmdFrame_ok {bs : List Byte} {i : Instr} (ht : bs.take 4 = cmdHeader) (h : decodeCmdFrame bs = .ok i) :
    ∃ code params, i = .cmd code params ∧ params.length ≤ 65533 ∧ bs = encodeCmdFrame code params := by
  unfold decodeCmdFrame at h
  split_ifs at h with hl hd
  cases h
  have hf := frameLengthField_lt bs
  generalize hn : frameLengthField bs = n at *
  obtain ⟨h2, hlen⟩ : 2 ≤ n ∧ bs.length = 10 + n := by omega
  refine ⟨_, _, rfl, by rw [List.length_take]; omega, ?_⟩
  match bs with
  | a0 :: a1 :: a2 :: a3 :: a4 :: a5 :: a6 :: a7 :: rest =>
    have hr : rest.length = 2 + n := by simp at hlen; omega
    have hfield : BitVec.ofNat 16 (2 + (rest.take (n - 2)).length) = le16 a4 a5 := by
      apply BitVec.eq_of_toNat_eq
      have hn' : (le16 a4 a5).toNat = n := hn
      rw [BitVec.toNat_ofNat, List.length_take, hn']
      omega
    have htrail : rest.drop (n - 2) = cmdTrailer := by
      rw [show 6 + n = 8 + (n - 2) by omega, ← List.drop_drop] at hd
      simpa using hd
    have hhead : [a0, a1, a2, a3] = cmdHeader := by simpa using ht
    have hrest : rest = rest.take (n - 2) ++ cmdTrailer := by rw [← htrail, List.take_append_drop]
    calc a0 :: a1 :: a2 :: a3 :: a4 :: a5 :: a6 :: a7 :: rest
      _ = [a0, a1, a2, a3] ++ [a4, a5] ++ [a6, a7] ++ (rest.take (n - 2) ++ cmdTrailer) := by rw [← hrest]; rfl
      _ = cmdHeader ++ le16Bytes (BitVec.ofNat 16 (2 + (rest.take (n - 2)).length)) ++ le16Bytes (le16 a6 a7)
          ++ (rest.take (n - 2) ++ cmdTrailer) := by rw [hhead, hfield, bytes_le16, bytes_le16]
      _ = encodeCmdFrame (le16 a6 a7) (rest.take (n - 2)) := (List.append_assoc _ _ _).symm
  | [] | [_] | [_, _] | [_, _, _] | [_, _, _, _] | [_, _, _, _, _] | [_, _, _, _, _, _] | [_, _, _, _, _, _, _] =>
    simp at hlen; omega

theorem decodeStdFrame_wellFormed {c : Nat} {bs : List Byte} {i : Instr} (h : decodeStdFrame bs = .ok i) :
    WellFormed c i := by
  have hf := frameLengthField_lt bs
  unfold decodeStdFrame at h
  split_ifs at h
  cases h
  exact wellFormed_frameStd_iff.mpr (by rw [List.length_take]; omega)

theorem decodeFrame_wellFormed {c : Nat} {bs : List Byte} {i : Instr} (h : decodeFrame bs = .ok i) :
    WellFormed c i := by
  unfold decodeFrame at h
  split_ifs at h with hmin hstd hcmd
  · cases h; rfl
  · cases h; rfl
  · obtain ⟨code, params, rfl, hp, rfl⟩ := decodeCmdFrame_ok hcmd h
    exact wellFormed_cmd_iff.mpr ⟨hp, hmin, hstd⟩
  · exact decodeStdFrame_wellFormed h

/-- Settles O9, for each form in which an instruction is written down. -/
theorem decodedInstructionsAreWellFormed : Obligations.DecodedInstructionsAreWellFormed := by
  intro c e i h
  cases e with
  | port p => exact decodePort_wellFormed h
  | stream bs => exact decodeStream_wellFormed h
  | frame bs => exact decodeFrame_wellFormed h

/-- Settles O10: the decoder run on each word. -/
theorem specWordsDecode : Obligations.SpecWordsDecode := by
  unfold Obligations.SpecWordsDecode
  decide

/-! ## The mask and match of the stream level -/

theorem bitVec_append_inj {m n : Nat} {x x' : BitVec m} {y y' : BitVec n} :
    x ++ y = x' ++ y' ↔ x = x' ∧ y = y' := by
  refine ⟨fun h => ⟨?_, ?_⟩, fun ⟨hx, hy⟩ => by rw [hx, hy]⟩
  · simpa only [BitVec.extractLsb'_append_eq_left] using congrArg (BitVec.extractLsb' n m) h
  · simpa only [BitVec.extractLsb'_append_eq_right] using congrArg (BitVec.extractLsb' 0 n) h

/-- The mask keeps the first and the fifth byte. -/
theorem masked_eq_iff (b0 b1 b2 b3 b4 h t : Byte) :
    (b0 ++ b1 ++ b2 ++ b3 ++ b4) &&& (BitVec.allOnes 8 ++ 0#8 ++ 0#8 ++ 0#8 ++ BitVec.allOnes 8)
      = h ++ 0#8 ++ 0#8 ++ 0#8 ++ t ↔ b0 = h ∧ b4 = t := by
  simp only [BitVec.and_append, bitVec_append_inj, BitVec.and_allOnes, BitVec.and_zero, and_true]

/-- The match asks of the two bytes the mask keeps what R89 asks of a minimal frame. -/
theorem streamMask_match_iff (b0 b1 b2 b3 b4 : Byte) :
    (b0 ++ b1 ++ b2 ++ b3 ++ b4 : BitVec 40) &&& 0xFF000000FF#40 = 0x6E00000062#40 ↔
      b0 = minHeader ∧ b4 = minTrailer :=
  masked_eq_iff b0 b1 b2 b3 b4 minHeader minTrailer

/-- Settles O11: the decoder's test is the mask and match. -/
theorem streamDecodeFollowsMaskAndMatch : Obligations.StreamDecodeFollowsMaskAndMatch := by
  refine ⟨fun c b0 b1 b2 b3 b4 rest => ?_, fun _ _ => decodeStream_short⟩
  simp only [streamMask_match_iff, decode, decodeStream]
  split <;> rfl

/-! ## The record of a packet -/

theorem bitVec_toNat_append_eq_add {m n : Nat} (x : BitVec m) (y : BitVec n) :
    (x ++ y).toNat = x.toNat * 2 ^ n + y.toNat := by
  rw [BitVec.toNat_append, ← Nat.shiftLeft_add_eq_or_of_lt y.isLt, Nat.shiftLeft_eq]

section
variable (k p : BitVec 1) (t : Byte) (d : Half)

/-- The four fields of a record as a number (R94). -/
theorem recordFields_toNat :
    (k ++ p ++ t ++ d).toNat = k.toNat * 2 ^ 25 + p.toNat * 2 ^ 24 + t.toNat * 2 ^ 16 + d.toNat := by
  simp only [bitVec_toNat_append_eq_add]
  omega

/-- The fields of a record, read back (R94). -/
theorem Packet.ofRecord_fields : Packet.ofRecord (k ++ p ++ t ++ d) =
    if k.getLsbD 0 then .standard t d else .minimal (p.getLsbD 0) d := by
  have hk : (k ++ p ++ t ++ d).getLsbD 25 = k.getLsbD 0 := by
    simp only [BitVec.getLsbD_append, Nat.reduceLT, Nat.reduceSub, if_false]
  have hp : (k ++ p ++ t ++ d).getLsbD 24 = p.getLsbD 0 := by
    simp only [BitVec.getLsbD_append, Nat.reduceLT, Nat.reduceSub, if_true, if_false]
  have ht : (k ++ p ++ t ++ d).extractLsb' 16 8 = t := by
    rw [BitVec.extractLsb'_append_eq_of_le le_rfl, BitVec.extractLsb'_append_eq_right]
  have hd : (k ++ p ++ t ++ d).extractLsb' 0 16 = d := BitVec.extractLsb'_append_eq_right
  unfold Packet.ofRecord
  rw [hk, hp, ht, hd]

end

theorem Packet.ofRecord_record (p : Packet) : Packet.ofRecord p.record = p := by
  cases p with
  | minimal pr d =>
    calc Packet.ofRecord (Packet.minimal pr d).record
      _ = .minimal ((BitVec.ofBool pr).getLsbD 0) d := Packet.ofRecord_fields 0#1 (BitVec.ofBool pr) 0#8 d
      _ = .minimal pr d := by simp
  | standard t d => exact Packet.ofRecord_fields 1#1 0#1 t d

/-- Settles O12: the numbers of the fields, and the fields read back. -/
theorem packetRecordLayout : Obligations.PacketRecordLayout := by
  refine ⟨fun pr d => ?_, fun t d => ?_, Packet.ofRecord_record⟩
  · refine (recordFields_toNat 0#1 (BitVec.ofBool pr) 0#8 d).trans ?_
    cases pr <;> simp
  · exact (recordFields_toNat 1#1 0#1 t d).trans (by simp)

/-! ## The frame rows -/

/-- A standard frame whose length field and payload hold no header byte holds none at all (R84, R145). -/
theorem encodeStdFrame_no_header {payload : List Byte}
    (h : ∀ b ∈ le16Bytes (BitVec.ofNat 16 payload.length) ++ payload, b ≠ minHeader) :
    ∀ b ∈ encodeStdFrame payload, b ≠ minHeader := by
  have hhead : ∀ b ∈ stdHeader, b ≠ minHeader := by decide
  have htrail : ∀ b ∈ stdTrailer, b ≠ minHeader := by decide
  intro b hb
  simp only [encodeStdFrame, List.mem_append] at hb h
  rcases hb with ((hb | hb) | hb) | hb
  · exact hhead b hb
  · exact h b (.inl hb)
  · exact h b (.inr hb)
  · exact htrail b hb

/-- FRAME.STD alone is the scan of its frame, or of the last `C` bytes of it (R145, assumption 10). -/
theorem exec_frameStd_of_idle {s : State} (hi : s.idle = true) (payload : List Byte) :
    exec (.frameStd payload) s =
      .next (s.closeScan (ScanRun.start (lastOf s.cfg.capacity [] (encodeStdFrame payload))).finish) := by
  simp [exec, execFrameStd, State.scan_of_idle hi, State.whenIdle_of_idle hi]

/-- Ending a scan with none in progress gives its response and changes nothing else. -/
theorem State.closeScan_sameBlock {s : State} (hi : s.idle = true) (r : ScanRun) : SameBlock s (s.closeScan r) :=
  ⟨rfl, rfl, rfl, (State.scan_of_idle hi).symm, rfl⟩

/-- Settles O36: the scan of the window, which in a frame without a header byte finds nothing. -/
theorem standardFrameIsNoise : Obligations.StandardFrameIsNoise := by
  intro s payload _ hi
  have hw : lastOf s.cfg.capacity [] (encodeStdFrame payload)
      = (encodeStdFrame payload).drop (10 + payload.length - s.cfg.capacity) := by
    simp [lastOf, encodeStdFrame_length]
  refine ⟨_, _, exec_frameStd_of_idle hi payload, hw, rfl, fun hno => ?_, State.closeScan_sameBlock hi _,
    ⟨rfl, rfl, rfl⟩⟩
  have hwno : ∀ b ∈ lastOf s.cfg.capacity [] (encodeStdFrame payload), b ≠ minHeader :=
    fun b hb => encodeStdFrame_no_header hno b (List.mem_of_mem_drop (hw ▸ hb))
  rw [State.closeScan_responses, ScanRun.finish_start, scanList_no_header _ hwno, lastOf_nil_length,
    encodeStdFrame_length]

/-- BUILD_COMMAND's frame is the one the encoder lists for CMD (R82, R170). -/
theorem buildCommand_of_le (code : Half) {params : List Byte} (h : params.length ≤ 65533) :
    buildCommand code params = .ok (encodeCmdFrame code params) :=
  if_neg (Nat.not_lt.mpr h)

/-- Each CMD row answers its own encoding (R82, R83, R170). -/
theorem exec_answers_encoded_frame {s : State} {i : Instr} (hi : s.idle = true) (hwf : WellFormed s.cfg.capacity i)
    (h : (∃ code params, i = .cmd code params) ∨ i = .cmdSetMin ∨ i = .cmdSetStd) :
    ∃ bs, encode i = .frame bs ∧ exec i s = .next (s.respond (.frame bs)) := by
  rcases h with ⟨code, params, rfl⟩ | rfl | rfl
  · refine ⟨_, rfl, (State.whenIdle_of_idle hi _).trans ?_⟩
    rw [buildCommand_of_le code (wellFormed_cmd_iff.mp hwf).1]
    rfl
  · exact ⟨_, rfl, State.whenIdle_of_idle hi _⟩
  · exact ⟨_, rfl, State.whenIdle_of_idle hi _⟩

/-- Settles O54: a CMD row answers its encoding, and by the round trip that decodes to the row. -/
theorem cmdRowEmitsItsFrame : Obligations.CmdRowEmitsItsFrame := by
  intro s i hi hwf h
  obtain ⟨bs, he, hx⟩ := exec_answers_encoded_frame hi hwf h
  exact ⟨_, bs, hx, rfl, he ▸ decodeEncodeRoundTrip _ i hwf, ⟨rfl, rfl, rfl, rfl, rfl⟩, ⟨rfl, rfl, rfl⟩⟩

end Sys2Proof.Machine
end

section
/-! PROOF. The FIFO operations (spec/40_fifo_ops.md): APPEND on the ring and on `Q`, the run of many APPENDs, DRAIN and
SNAPSHOT, and the scan after an eviction tear (R118, R221). -/

namespace Sys2Proof.Machine

/-! ## The ring -/

/-- The cell APPEND writes: that of the evicted head when the FIFO is full, the one after the tail otherwise (R111). -/
def Fifo.tailCell (c : Nat) (f : Fifo) : Nat := if f.cnt = c then f.head else f.place c f.cnt

/-- APPEND writes one cell and no other (R111). -/
theorem Fifo.append_mem (c : Nat) (f : Fifo) (b : Byte) :
    (f.append c b).mem = Memory.write f.mem (f.tailCell c) b := by
  unfold Fifo.append Fifo.tailCell; split <;> rfl

/-- The head moves only when its byte is evicted (R111). -/
theorem Fifo.append_head (c : Nat) (f : Fifo) (b : Byte) :
    (f.append c b).head = if f.cnt = c then (f.head + 1) % c else f.head := by
  unfold Fifo.append; split <;> rfl

/-- Under the invariant `Q` is what the cells hold, and no free value is read (R23). -/
theorem Fifo.toList_getElem?_eq_read {c : Nat} {f : Fifo} (hf : f.Inv c) {k : Nat} (hk : k < f.cnt) :
    (f.toList c)[k]? = Memory.read f.mem (f.place c k) := by
  obtain ⟨b, hb⟩ := Option.isSome_iff_exists.mp (hf.live k hk)
  rw [List.getElem?_eq_getElem (by simpa using hk), Fifo.toList_getElem, Fifo.cell, hb, Option.getD_some]

/-! ## APPEND -/

/-- The state after the APPENDs of `bs`, each answered `Ok` (R110, R97 `APPENDS`). -/
def State.appended (s : State) (bs : List Byte) : State :=
  { s with
    fifo := s.fifo.appendAll s.cfg.capacity bs
    responses := s.responses ++ List.replicate bs.length .done }

theorem State.appended_nil (s : State) : s.appended [] = s := by simp [State.appended, Fifo.appendAll]

/-- Appending one byte and then the others is appending them all. -/
theorem State.appended_appended (s : State) (b : Byte) (bs : List Byte) :
    (s.appended [b]).appended bs = s.appended (b :: bs) := by
  simp [State.appended, Fifo.appendAll, List.replicate_succ]

theorem State.appended_onlyFifo (s : State) (bs : List Byte) : OnlyFifo s (s.appended bs) :=
  ⟨rfl, rfl, rfl, rfl, ⟨rfl, rfl, rfl⟩⟩

/-- The last `C` of all the bytes stay (R112). -/
theorem State.appended_q {s : State} (hs : s.Inv) (bs : List Byte) :
    (s.appended bs).q = lastOf s.cfg.capacity s.q bs := Fifo.appendAll_toList hs.capacity_pos bs hs.fifo

theorem exec_append_of_idle {s : State} (hi : s.idle = true) (b : Byte) :
    exec (.append b) s = .next (s.appended [b]) := State.whenIdle_of_idle hi _

/-- Settles O15: APPEND on the ring against APPEND on `Q`, and the frame. -/
theorem appendPutsByteAtTail : Obligations.AppendPutsByteAtTail := by
  intro s b hs hi
  refine ⟨fun p hp => by simp [decode, decodePort, hp], _, exec_append_of_idle hi b, ?_, ?_, rfl,
    s.appended_onlyFifo [b]⟩
  · rw [State.q_length]
    exact Fifo.append_toList hs.capacity_pos hs.fifo.head_lt hs.fifo.cnt_le b
  · rw [State.appended_q hs]
    exact lastOf_length hs.q_length_le

/-- Settles O16: the one cell written, and the head and the counter. -/
theorem appendOnTheRing : Obligations.AppendOnTheRing := by
  intro s b hi
  have hmem : (s.appended [b]).fifo.mem = Memory.write s.fifo.mem (s.fifo.tailCell s.cfg.capacity) b :=
    Fifo.append_mem _ _ _
  refine ⟨_, s.fifo.tailCell s.cfg.capacity, exec_append_of_idle hi b, rfl, ?_, fun a' ha => ?_,
    Fifo.append_head _ _ _, ?_⟩
  · rw [hmem, Memory.read_write_same]
  · rw [hmem, Memory.read_write_other _ _ ha]
  · refine (Fifo.append_cnt _ _ _).trans ?_
    split
    · assumption
    · rfl

/-! ## A run of APPENDs -/

theorem step_issueAppend {s : State} {b : Byte} {rest : List Request} (hi : s.idle = true)
    (hh : s.host = issueAppend b :: rest) : step s = .next ((s.setHost rest).appended [b]) := by
  rw [step_op hi hh (Laws.RoundTrip.append b _ rfl)]
  exact exec_append_of_idle (s := s.setHost rest) hi b

/-- The APPENDs of `bs`, issued one after another, take a step a byte (R97 `APPENDS`). -/
theorem run_appends {s : State} {bs : List Byte} {rest : List Request} (hi : s.idle = true)
    (hh : s.host = appends bs ++ rest) : run bs.length s = .next ((s.setHost rest).appended bs) := by
  induction bs generalizing s with
  | nil =>
    have hrest : s.setHost rest = s := by subst hh; rfl
    rw [State.appended_nil, hrest]
    exact run_zero s
  | cons b bs ih =>
    have hrest := ih (s := (s.setHost (appends bs ++ rest)).appended [b]) hi rfl
    rw [List.length_cons, run_succ _ (step_issueAppend hi hh)]
    exact hrest.trans (congrArg _ ((s.setHost rest).appended_appended b bs))

/-- Settles O17: the run of the APPENDs, and the last `C` of all the bytes. -/
theorem repeatedAppendsKeepLastBytes : Obligations.RepeatedAppendsKeepLastBytes := by
  intro s bs rest hs hi hh
  exact ⟨_, run_appends hi hh, State.appended_q (State.setHost_inv hs rest) bs, rfl, rfl, rfl, rfl,
    State.scan_of_idle hi, State.waiting_of_idle hi, rfl, rfl⟩

/-! ## DRAIN -/

theorem exec_drain_of_le {s : State} {n : Nat} (hi : s.idle = true) (hn : n ≤ s.q.length) :
    exec (.drain n) s = .next ((s.setFifo (s.fifo.drain s.cfg.capacity n)).respond .done) := by
  rw [State.q_length] at hn
  exact (State.whenIdle_of_idle hi _).trans (by rw [if_neg (Nat.not_lt.mpr hn)])

theorem exec_drain_of_lt {s : State} {n : Nat} (hi : s.idle = true) (hn : s.q.length < n) :
    exec (.drain n) s = .next (s.raise (.drainRange n s.q.length)) := by
  rw [State.q_length] at hn ⊢
  exact (State.whenIdle_of_idle hi _).trans (by rw [if_pos hn])

/-- Settles O18: the first `n` bytes go, or `DrainRange` is answered and nothing goes. -/
theorem drainRemovesFrontOrIsRefused : Obligations.DrainRemovesFrontOrIsRefused := by
  intro s n hi
  refine ⟨fun p hp hn => by simp [decode, decodePort, hp, hn], fun hn => ?_, fun hn => ?_⟩
  · exact ⟨_, exec_drain_of_le hi hn, Fifo.drain_toList _ _ _, rfl, rfl, rfl, rfl,
      ⟨rfl, rfl, rfl, rfl, ⟨rfl, rfl, rfl⟩⟩⟩
  · exact ⟨_, exec_drain_of_lt hi hn, rfl, rfl, ⟨rfl, rfl, rfl, rfl, rfl⟩, ⟨rfl, rfl, rfl⟩⟩

/-! ## SNAPSHOT -/

/-- Settles O19: the copy is `Q`, and `Q` is what the cells hold. -/
theorem snapshotCopiesContent : Obligations.SnapshotCopiesContent := by
  intro s hs hi
  exact ⟨fun p hp => by simp [decode, decodePort, hp], _, s.q, State.whenIdle_of_idle hi _, rfl, rfl, s.q_length,
    hs.q_length_le, fun _ hk => Fifo.toList_getElem?_eq_read hs.fifo hk, ⟨rfl, rfl, rfl, rfl, rfl⟩, ⟨rfl, rfl, rfl⟩⟩

/-! ## The eviction tear -/

/-- Bytes without a header are skipped one at a time, as long as four bytes follow them (R133, R138). -/
theorem scanList_noise_append {noise w : List Byte} (hno : ∀ b ∈ noise, b ≠ minHeader) (hw : 4 ≤ w.length) :
    scanList (noise ++ w) = ((scanList w).1, noise.length + (scanList w).2) := by
  induction noise with
  | nil => simp
  | cons b noise ih =>
    have hskip : ¬(b = minHeader ∧ (noise ++ w)[3]? = some minTrailer) := fun h => hno b (by simp) h.1
    rw [List.cons_append, scanList_skip (by simp; omega) hskip, ih fun b hb => hno b (by simp [hb])]
    simp; omega

/-- Noise, then a whole frame: the frame is decoded, and the scan goes on behind it (R138). -/
theorem scanWindow_noise_frame {noise : List Byte} (hno : ∀ b ∈ noise, b ≠ minHeader) (s lo hi : Byte)
    (rest : List Byte) :
    scanWindow (noise ++ minimalFrame s lo hi ++ rest) =
      (decodePacket s lo hi :: (scanWindow rest).1, noise.length + 5 + (scanWindow rest).2) := by
  have hframe : scanList (minimalFrame s lo hi ++ rest) = _ := scanList_frame s lo hi rest
  rw [scanWindow_eq, scanWindow_eq, List.append_assoc, scanList_noise_append hno (by simp [minimalFrame]), hframe,
    Nat.add_assoc]

theorem step_issueScan {s : State} {rest : List Request} (hi : s.idle = true) (hh : s.host = issueScan :: rest) :
    step s = .next ((s.setHost rest).respond (.scanned (scanWindow s.q).1 (scanWindow s.q).2)) := by
  rw [step_op hi hh (Laws.RoundTrip.scan _ rfl)]
  exact State.whenIdle_of_idle (s := s.setHost rest) hi _

/-- Settles O38: the run of the APPENDs keeps the last `C` bytes, and the scan of these skips the torn front. -/
theorem evictionTearIsSkipped : Obligations.EvictionTearIsSkipped := by
  intro s bs torn rest state lo hi moves hs hidle hh hlast hno
  have hq : ((s.setHost (issueScan :: moves)).appended bs).q = lastOf s.cfg.capacity s.q bs :=
    State.appended_q (State.setHost_inv hs _) bs
  have hscan := step_issueScan (s := (s.setHost (issueScan :: moves)).appended bs) hidle rfl
  rw [hq, hlast, scanWindow_noise_frame hno] at hscan
  refine ⟨_, run_append _ 1 (run_appends hidle hh) (run_one hscan), ?_, hq.trans hlast, rfl, rfl, rfl⟩
  exact (congrArg _ hq).trans (List.take_append_drop _ _)

end Sys2Proof.Machine
end

section
/-! PROOF. The Frame Scanner (spec/41_scanner.md): the stream-level rows in a scan and outside one, the bounds of a scan, SCAN
and the drain of its count (R146), and the chunking law (R143), of the FIFO and of a stream read by successive POLLs (R157). -/

namespace Sys2Proof.Machine

/-! ## The packet decoded -/

theorem presence_iff (state : Byte) : presence state = true ↔ state = 2 ∨ state = 3 := by simp [presence]

/-- Settles O32: the presence boolean is R135's by definition, and the distance is a little-endian field (R136). -/
theorem packetDecoding : Obligations.PacketDecoding :=
  fun _ lo hi => ⟨distance lo hi, rfl, le16_toNat lo hi⟩

/-! ## The stream-level rows -/

/-- In a scan with five bytes or more remaining, a stream-level row is one step of that scan (R132, R133). -/
theorem State.streamStep_of_scan {s : State} {r : ScanRun} (hr : s.scan = some r) (h : ¬ r.remaining < 5)
    (bytes : List Byte) (f : ScanRun → ScanRun) : s.streamStep bytes f = .next (s.setScan (some (f r))) := by
  simp [State.streamStep, hr, h]

/-- In a scan with fewer than five bytes remaining, a stream-level row is refused (R132, R133). -/
theorem State.streamStep_of_short {s : State} {r : ScanRun} (hr : s.scan = some r) (h : r.remaining < 5)
    (bytes : List Byte) (f : ScanRun → ScanRun) : s.streamStep bytes f = .refused .fewerThanFiveBytes := by
  simp [State.streamStep, hr, h]

/-- With no operation in progress, a stream-level row is one step of a scan of its own bytes, which it ends (assumption 8). -/
theorem State.streamStep_of_idle {s : State} (hi : s.idle = true) (bytes : List Byte) (f : ScanRun → ScanRun) :
    s.streamStep bytes f = .next (s.closeScan (f (ScanRun.start bytes))) := by
  simp [State.streamStep, State.scan_of_idle hi, State.whenIdle_of_idle hi]

/-- Five bytes standing at the scan position are five bytes remaining. -/
theorem ScanRun.five_le_remaining {r : ScanRun} {b0 b1 b2 b3 b4 : Byte} {rest : List Byte}
    (h : r.window.drop r.pc = b0 :: b1 :: b2 :: b3 :: b4 :: rest) : ¬ r.remaining < 5 := by
  rw [← ScanRun.ahead_length, ScanRun.ahead, h]
  simp

/-- Five bytes that are no minimal frame decode to SKIP, and to the SKIP of exactly these bytes (R89). -/
theorem decodeStream_of_not_frame {b0 b4 : Byte} (h : b0 ≠ minHeader ∨ b4 ≠ minTrailer) (b1 b2 b3 : Byte)
    (rest : List Byte) :
    decodeStream (b0 :: b1 :: b2 :: b3 :: b4 :: rest) = .ok (.skip b0 b1 b2 b3 b4) :=
  if_neg (not_and_or.mpr h)

/-- Settles O23: the frame decodes to FRAME.MIN, which is one step of the scan. -/
theorem frameMinDecodesAndAdvancesByFive : Obligations.FrameMinDecodesAndAdvancesByFive := by
  intro s r state lo hi rest hr hw
  have hdecode : decodeStream (r.window.drop r.pc) = .ok (.frameMin state lo hi) :=
    hw ▸ decodeStream_frame state lo hi rest
  exact ⟨hdecode, _, presence state, distance lo hi,
    State.streamStep_of_scan hr (ScanRun.five_le_remaining hw) _ _, rfl, presence_iff state, le16_toNat lo hi,
    rfl, rfl, rfl, rfl, rfl, ⟨rfl, rfl, rfl⟩⟩

/-- Settles O24: bytes that are no frame decode to SKIP, which is one step of the scan. -/
theorem skipPassesOverOneByte : Obligations.SkipPassesOverOneByte := by
  intro s r b0 b1 b2 b3 b4 rest hr hw hno
  have hdecode : decodeStream (r.window.drop r.pc) = .ok (.skip b0 b1 b2 b3 b4) :=
    hw ▸ decodeStream_of_not_frame hno b1 b2 b3 rest
  exact ⟨hdecode, _, State.streamStep_of_scan hr (ScanRun.five_le_remaining hw) _ _, rfl,
    rfl, rfl, rfl, rfl, rfl, ⟨rfl, rfl, rfl⟩⟩

/-- Settles O25: both rows are stream-level steps, and those are refused. -/
theorem streamRowsNeedFiveBytes : Obligations.StreamRowsNeedFiveBytes :=
  fun _ _ _ _ _ _ _ hr h => ⟨State.streamStep_of_short hr h _ _, State.streamStep_of_short hr h _ _⟩

/-- The scan of a minimal frame alone. -/
theorem scanWindow_minimalFrame (state lo hi : Byte) :
    scanWindow (minimalFrame state lo hi) = ([decodePacket state lo hi], 5) := by
  rw [scanWindow_eq]
  exact scanList_frame state lo hi []

/-- The scan of five bytes that are no frame skips the first one and stops. -/
theorem scanWindow_of_not_frame {b0 b4 : Byte} (h : ¬(b0 = minHeader ∧ b4 = minTrailer)) (b1 b2 b3 : Byte) :
    scanWindow [b0, b1, b2, b3, b4] = ([], 1) := by
  have hrest : scanList [b1, b2, b3, b4] = ([], 0) := scanList_short (by simp)
  simp [scanWindow_eq, scanList_skip (w := [b1, b2, b3, b4]) (by simp) (by simpa using h), hrest]

/-- Settles O26: each row's one step is the whole scan of its five bytes. -/
theorem streamRowAloneIsScanOfItsBytes : Obligations.StreamRowAloneIsScanOfItsBytes := by
  intro s b0 b1 b2 b3 b4 hi
  refine ⟨⟨_, State.streamStep_of_idle hi _ _, ?_, State.closeScan_sameBlock hi _, ⟨rfl, rfl, rfl⟩⟩,
    fun hwf => ⟨_, State.streamStep_of_idle hi _ _, ?_, State.closeScan_sameBlock hi _, ⟨rfl, rfl, rfl⟩⟩⟩
  · rw [scanWindow_minimalFrame]
    rfl
  · rw [scanWindow_of_not_frame (wellFormed_skip_iff.mp hwf)]
    rfl

/-- Settles O27: the step that ends the scan. -/
theorem scanStopsBelowFiveBytes : Obligations.ScanStopsBelowFiveBytes :=
  fun _ _ hw hr h => ⟨_, step_of_scan_end hw hr h, rfl, rfl, rfl, rfl, rfl, hw, ⟨rfl, rfl, rfl⟩⟩

/-- FRAME.STD in a scan is the loop of stream-level steps up to the frame's end (R145, assumption 10). -/
theorem exec_frameStd_of_scan {s : State} {r : ScanRun} (hr : s.scan = some r) (payload : List Byte) :
    exec (.frameStd payload) s =
      .next (s.setScan (some (r.runTo (r.pc + (10 + payload.length)) (10 + payload.length)))) := by
  simp [exec, execFrameStd, hr]

/-- Settles O37: the bounded loop is a run of stream-level steps, and says where it stopped and why. -/
theorem standardFrameGoesThroughStreamSteps : Obligations.StandardFrameGoesThroughStreamSteps := by
  intro s r payload hr
  obtain ⟨n, hn, hrun, hstop, hgo⟩ := ScanRun.runTo_iterate (r.pc + (10 + payload.length)) _ r le_rfl
  rw [← Nat.add_assoc] at hstop hgo
  exact ⟨_, n, exec_frameStd_of_scan hr payload, hn, congrArg some hrun, hstop, hgo, rfl, rfl, rfl, rfl, rfl,
    ⟨rfl, rfl, rfl⟩⟩

/-! ## The bounds of a scan -/

/-- Nothing is decoded of fewer than five bytes (R144). -/
theorem scanWindow_short {w : List Byte} (h : w.length ≤ 4) : scanWindow w = ([], 0) := by
  rw [scanWindow_eq, scanList_short (Nat.lt_succ_of_le h)]

/-- Settles O30: the empty window is one of the short ones. -/
theorem shortWindowsYieldNothing : Obligations.ShortWindowsYieldNothing :=
  ⟨scanWindow_short (Nat.zero_le 4), fun _ => scanWindow_short⟩

/-- A SKIP after which fewer than five bytes remain leaves exactly four (R139). -/
theorem ScanRun.skip_pc_of_last {r : ScanRun} (h : ¬ r.remaining < 5) (hlast : r.skip.remaining < 5) :
    r.skip.pc = r.window.length - 4 := by
  simp only [ScanRun.remaining, ScanRun.skip] at h hlast ⊢
  omega

/-- A pass that leaves no byte is a FRAME.MIN of the window's last five (R139). -/
theorem ScanRun.step_frame_of_pc_eq_length {r : ScanRun} (h : ¬ r.remaining < 5) (hend : r.step.pc = r.window.length) :
    ∃ s lo hi, r.ahead = minimalFrame s lo hi ∧ r.step = r.frame s lo hi := by
  rcases ScanRun.step_cases h with ⟨s, lo, hi, rest, ha, e⟩ | ⟨b, w, -, -, -, e⟩
  · have hrest : rest = [] := by
      have hlen := r.ahead_length
      rw [e] at hend
      simp [ha, ScanRun.remaining, ScanRun.frame] at hlen hend
      exact List.eq_nil_of_length_eq_zero (by omega)
    subst hrest
    exact ⟨s, lo, hi, ha, e⟩
  · rw [e] at hend
    simp only [ScanRun.remaining, ScanRun.skip] at h hend
    omega

/-- Settles O29: the bounds of the whole scan, and the two kinds of its last pass. -/
theorem consumedCountBounds : Obligations.ConsumedCountBounds := by
  refine ⟨fun w => scanWindow_eq w ▸ scanList_bounds w, fun r h hlast => ?_⟩
  have h5 : ¬ r.remaining < 5 := Nat.not_lt.mpr h
  refine ⟨fun hskip => ?_, ScanRun.step_frame_of_pc_eq_length h5⟩
  rw [hskip] at hlast ⊢
  exact ScanRun.skip_pc_of_last h5 hlast

/-- Settles O31: each packet took five bytes of the window. -/
theorem packetCountBound : Obligations.PacketCountBound := by
  intro c w hw
  obtain ⟨hle, -, -, hfive⟩ := scanList_bounds w
  rw [scanWindow_eq, pktMax]
  omega

/-- Settles O33: noise without a header is skipped. -/
theorem scannerResynchronisesAfterNoise : Obligations.ScannerResynchronisesAfterNoise :=
  fun _ rest s lo hi hno => scanWindow_noise_frame hno s lo hi rest

/-! ## SCAN, and the drain of its count -/

/-- Settles O22: SCAN answers the scan of `Q` and writes nothing. -/
theorem scanReportsPacketsAndCount : Obligations.ScanReportsPacketsAndCount :=
  fun _ hi => ⟨fun p hp => by simp [decode, decodePort, hp], _, State.whenIdle_of_idle hi _, rfl,
    ⟨rfl, rfl, rfl, rfl, rfl⟩, ⟨rfl, rfl, rfl⟩⟩

/-- A scan never consumes more than its window (R139). -/
theorem scanWindow_le (w : List Byte) : (scanWindow w).2 ≤ w.length := scanWindow_eq w ▸ scanList_le w

/-- What a scan leaves of its window is at most four bytes, in which a second scan finds nothing (R146). -/
theorem scanWindow_residue (w : List Byte) :
    (w.drop (scanWindow w).2).length ≤ 4 ∧ scanWindow (w.drop (scanWindow w).2) = ([], 0) := by
  simpa only [scanWindow_eq] using scanList_residue w

/-- The step that takes a DRAIN of bytes that are held (R113). -/
theorem step_issueDrain {s : State} {n : Nat} {rest : List Request} (hi : s.idle = true)
    (hh : s.host = issueDrain n :: rest) (hcap : s.q.length ≤ s.cfg.capacity) (hn : n ≤ s.q.length) :
    step s = .next (((s.setHost rest).setFifo (s.fifo.drain s.cfg.capacity n)).respond .done) := by
  have hfits : WellFormed s.cfg.capacity (.drain n) := wellFormed_drain_iff.mpr (lt_countWidth (hn.trans hcap))
  rw [step_op hi hh (Laws.RoundTrip.drain n _ hfits)]
  exact exec_drain_of_le (s := s.setHost rest) hi hn

/-- Settles O35: a step of SCAN and a step of DRAIN, which leaves what the scan did not consume. -/
theorem drainedScanLeavesAtMostFourBytes : Obligations.DrainedScanLeavesAtMostFourBytes := by
  intro s rest hs hi hh
  have hscan := step_issueScan hi hh
  have hdrain := step_issueDrain
    (s := (s.setHost (issueDrain (scanWindow s.q).2 :: rest)).respond (.scanned (scanWindow s.q).1 (scanWindow s.q).2))
    hi rfl hs.q_length_le (scanWindow_le s.q)
  have hq : (s.fifo.drain s.cfg.capacity (scanWindow s.q).2).toList s.cfg.capacity = s.q.drop (scanWindow s.q).2 :=
    Fifo.drain_toList _ _ _
  obtain ⟨hle, hnone⟩ := scanWindow_residue s.q
  rw [← hq] at hle hnone
  exact ⟨_, run_append 1 1 (run_one hscan) (run_one hdrain), hq, hle, hnone, by simp, rfl, rfl⟩

/-! ## The chunking law -/

/-- The scan of a longer window is the scan of the shorter one, resumed on what that one left (R143). -/
theorem scanWindow_append (w v : List Byte) :
    scanWindow (w ++ v) =
      ((scanWindow w).1 ++ (scanWindow (w.drop (scanWindow w).2 ++ v)).1,
        (scanWindow w).2 + (scanWindow (w.drop (scanWindow w).2 ++ v)).2) := by
  simpa only [scanWindow_eq] using scanList_append w v

/-- Bytes that fit behind `Q` evict nothing (R110, R112). -/
theorem Fifo.appendAll_toList_of_fits {c : Nat} (hc : 0 < c) {f : Fifo} (hf : f.Inv c) {bs : List Byte}
    (hfit : f.cnt + bs.length ≤ c) : (f.appendAll c bs).toList c = f.toList c ++ bs := by
  simp [Fifo.appendAll_toList hc bs hf, lastOf, Nat.sub_eq_zero_of_le hfit]

/-- The FIFO after one round of R143: a piece appended, and the consumed count of the scan drained. -/
def Fifo.fed (c : Nat) (f : Fifo) (p : List Byte) : Fifo :=
  (f.appendAll c p).drain c (scanWindow ((f.appendAll c p).toList c)).2

theorem feed_cons (c : Nat) (f : Fifo) (p : List Byte) (ps : List (List Byte)) :
    feed c f (p :: ps) =
      ((scanWindow ((f.appendAll c p).toList c)).1 ++ (feed c (f.fed c p) ps).1, (feed c (f.fed c p) ps).2) := rfl

theorem feedsWhole_cons_iff (c : Nat) (f : Fifo) (p : List Byte) (ps : List (List Byte)) :
    feedsWhole c f (p :: ps) = true ↔ f.cnt + p.length ≤ c ∧ feedsWhole c (f.fed c p) ps = true := by
  simp [feedsWhole, Fifo.fed]

/-- A round keeps the ring's invariant. -/
theorem Fifo.fed_inv {c : Nat} (hc : 0 < c) {f : Fifo} (hf : f.Inv c) (p : List Byte) : (f.fed c p).Inv c :=
  Fifo.drain_inv hc (Fifo.appendAll_inv hc p hf) ((scanWindow_le _).trans (Fifo.toList_length _ _).le)

theorem Fifo.fed_toList (c : Nat) (f : Fifo) (p : List Byte) :
    (f.fed c p).toList c =
      ((f.appendAll c p).toList c).drop (scanWindow ((f.appendAll c p).toList c)).2 := Fifo.drain_toList _ _ _

/-- A round leaves at most four bytes (R146). -/
theorem Fifo.fed_cnt_le (c : Nat) (f : Fifo) (p : List Byte) : (f.fed c p).cnt ≤ 4 := by
  rw [← Fifo.toList_length c, Fifo.fed_toList]
  exact (scanWindow_residue _).1

/-- The chunking law from any FIFO that holds fewer than five bytes, in which a scan finds nothing: each round's scan is
resumed on what the round before left (R143). -/
theorem feed_eq_scanWindow {c : Nat} (hc : 0 < c) {f : Fifo} (hf : f.Inv c) (hcnt : f.cnt ≤ 4)
    {pieces : List (List Byte)} (hwhole : feedsWhole c f pieces = true) :
    (feed c f pieces).1 = (scanWindow (f.toList c ++ pieces.flatten)).1 ∧
      (feed c f pieces).2.toList c =
        (f.toList c ++ pieces.flatten).drop (scanWindow (f.toList c ++ pieces.flatten)).2 := by
  induction pieces generalizing f with
  | nil =>
    have hshort : scanWindow (f.toList c) = ([], 0) := scanWindow_short (by simpa using hcnt)
    simp [feed, hshort]
  | cons p ps ih =>
    obtain ⟨hfit, hps⟩ := (feedsWhole_cons_iff c f p ps).mp hwhole
    obtain ⟨hout, hrest⟩ := ih (Fifo.fed_inv hc hf p) (Fifo.fed_cnt_le c f p) hps
    rw [Fifo.fed_toList, Fifo.appendAll_toList_of_fits hc hf hfit] at hout hrest
    have hsplit := scanWindow_append (f.toList c ++ p) ps.flatten
    rw [feed_cons, Fifo.appendAll_toList_of_fits hc hf hfit, List.flatten_cons, ← List.append_assoc, hsplit, hout, hrest]
    refine ⟨rfl, ?_⟩
    rw [← List.drop_append_of_le_length (scanWindow_le _), List.drop_drop]

/-- Settles O34: the chunking law from an empty FIFO. -/
theorem chunkingDoesNotChangePackets : Obligations.ChunkingDoesNotChangePackets := by
  intro c f pieces hc hf hempty hwhole
  have hcnt : f.cnt ≤ 4 := by rw [← Fifo.toList_length c, hempty]; simp
  simpa [hempty] using feed_eq_scanWindow (by omega) hf hcnt hwhole

/-! ## A stream read by successive POLLs -/

/-- Pieces that fit behind the four bytes a round may leave never evict a byte (R153). -/
theorem feedsWhole_of_le {c m : Nat} (hm : m + 4 ≤ c) {f : Fifo} (hcnt : f.cnt ≤ 4) {pieces : List (List Byte)}
    (hle : ∀ p ∈ pieces, p.length ≤ m) : feedsWhole c f pieces = true := by
  induction pieces generalizing f with
  | nil => rfl
  | cons p ps ih =>
    have hp := hle p (by simp)
    exact (feedsWhole_cons_iff c f p ps).mpr
      ⟨by omega, ih (Fifo.fed_cnt_le c f p) fun q hq => hle q (by simp [hq])⟩

/-- The step that takes a POLL whose listed answer is within the contract (R150). -/
theorem step_issuePoll {s : State} {bs : List Byte} {reads : List ReadAnswer} {host : List Request} (hi : s.idle = true)
    (hh : s.host = issuePoll :: host) (hr : s.env.reads = .data bs :: reads) (hle : bs.length ≤ s.cfg.chunkMax) :
    step s = .next (((s.setHost host).afterRead.polled bs).respond (.packets (s.pollPackets bs))) := by
  have hshort : (s.setHost host).readTooLong = false :=
    (State.readTooLong_of_reads (s := s.setHost host) hr).trans (decide_eq_false (Nat.not_lt.mpr hle))
  have hanswer : (s.setHost host).readAnswer = .data bs := State.readAnswer_of_reads hr
  calc step s = exec .poll (s.setHost host) := step_op hi hh (Laws.RoundTrip.poll _ rfl)
    _ = (s.setHost host).withRead State.pollAnswered := State.whenIdle_of_idle (s := s.setHost host) hi _
    _ = .next (State.pollAnswered (.data bs) (s.setHost host).afterRead) := by
      rw [State.withRead_of_contract hshort, hanswer]

/-- Successive POLLs given `pieces` are R143's feeding of these pieces, and cache the newest of all their packets (R150, R152,
R157). -/
theorem run_polls {s : State} {pieces : List (List Byte)} {reads : List ReadAnswer} {host : List Request}
    (hi : s.idle = true) (hle : ∀ p ∈ pieces, p.length ≤ s.cfg.chunkMax)
    (hr : s.env.reads = pieces.map .data ++ reads) (hh : s.host = List.replicate pieces.length issuePoll ++ host) :
    ∃ (t : State) (outs : List (List Packet)), run pieces.length s = .next t ∧
      t.responses = s.responses ++ outs.map .packets ∧ outs.length = pieces.length ∧
      outs.flatten = (feed s.cfg.capacity s.fifo pieces).1 ∧
      t.cfg = s.cfg ∧ t.fifo = (feed s.cfg.capacity s.fifo pieces).2 ∧
      t.last = newestOr (feed s.cfg.capacity s.fifo pieces).1 s.last := by
  induction pieces generalizing s with
  | nil => exact ⟨s, [], run_zero s, by simp, rfl, rfl, rfl, rfl, rfl⟩
  | cons p ps ih =>
    have hstep := step_issuePoll hi hh hr (hle p (by simp))
    have hreads : (s.setHost (List.replicate ps.length issuePoll ++ host)).afterRead.env.reads = ps.map .data ++ reads :=
      congrArg Env.reads (Env.afterRead_of_reads hr)
    obtain ⟨t, outs, hrun, hresp, hlen, hout, hcfg, hfifo, hlast⟩ :=
      ih (s := ((s.setHost (List.replicate ps.length issuePoll ++ host)).afterRead.polled p).respond
        (.packets (s.pollPackets p))) hi (fun q hq => hle q (by simp [hq])) hreads rfl
    refine ⟨t, s.pollPackets p :: outs, (run_succ _ hstep).trans hrun, ?_, by simp [hlen], ?_, hcfg, hfifo, ?_⟩
    · simpa using hresp
    · rw [feed_cons, List.flatten_cons, hout]
      rfl
    · rw [hlast, feed_cons, newestOr_append]
      rfl

/-- Settles O43: the POLLs feed the FIFO, no append evicts, and the chunking law says what the feeding decodes and leaves. -/
theorem polledStreamDecodesAsOneScan : Obligations.PolledStreamDecodesAsOneScan := by
  intro s pieces reads host hs hi hempty hcap hle hr hh
  have hcnt : s.fifo.cnt ≤ 4 := by rw [← State.q_length, hempty]; simp
  obtain ⟨hpackets, hrest⟩ :=
    chunkingDoesNotChangePackets _ s.fifo pieces hs.capacity hs.fifo hempty (feedsWhole_of_le hcap hcnt hle)
  obtain ⟨t, outs, hrun, hresp, hlen, hout, hcfg, hfifo, hlast⟩ := run_polls hi hle hr hh
  rw [hpackets] at hout hlast
  have hq : t.q = (feed s.cfg.capacity s.fifo pieces).2.toList s.cfg.capacity := by rw [State.q, hcfg, hfifo]
  exact ⟨t, outs, hrun, hresp, hlen, hout, hq.trans hrest, hlast⟩

end Sys2Proof.Machine
end

section
/-! PROOF. The polling and caching engine (spec/42_poll_engine.md): one pass of POLL, what writes `LAST`, one iteration of
READ_LATEST, and a whole call of it. -/

namespace Sys2Proof.Machine

/-! ## The read answer -/

theorem State.readInContract_of_reads {s : State} {a : ReadAnswer} {rest : List ReadAnswer}
    (hr : s.env.reads = a :: rest) (hle : readSize a ≤ s.cfg.chunkMax) : s.ReadInContract :=
  (State.readTooLong_of_reads hr).trans (decide_eq_false (Nat.not_lt.mpr hle))

/-- POLL within the contract (R150, R198). -/
theorem exec_poll_of_contract {s : State} (hi : s.idle = true) (hc : s.ReadInContract) :
    exec .poll s = .next (State.pollAnswered s.readAnswer s.afterRead) :=
  (State.whenIdle_of_idle hi _).trans (State.withRead_of_contract hc _)

/-- An iteration of READ_LATEST within the contract (R158, R198). -/
theorem State.latestIteration_of_contract {s : State} (hc : s.ReadInContract) :
    s.latestIteration = .next (State.latestAnswered s.readAnswer s.afterRead) :=
  State.withRead_of_contract hc _

section
variable {s : State} {a : ReadAnswer} {rest : List ReadAnswer} (hr : s.env.reads = a :: rest)
  (hle : readSize a ≤ s.cfg.chunkMax)
include hr hle

theorem exec_poll_of_reads (hi : s.idle = true) : exec .poll s = .next (State.pollAnswered a s.afterRead) := by
  rw [exec_poll_of_contract hi (State.readInContract_of_reads hr hle), State.readAnswer_of_reads hr]

theorem State.latestIteration_of_reads : s.latestIteration = .next (State.latestAnswered a s.afterRead) := by
  rw [State.latestIteration_of_contract (State.readInContract_of_reads hr hle), State.readAnswer_of_reads hr]

theorem exec_readLatest_of_reads (hi : s.idle = true) :
    exec .readLatest s = .next (State.latestAnswered a s.afterRead) :=
  (State.whenIdle_of_idle hi _).trans (State.latestIteration_of_reads hr hle)

end

/-! ## One pass of POLL -/

/-- The head moves by the bytes evicted and then by those drained (R111, R114). -/
theorem State.polled_head {s : State} (hs : s.Inv) (bs : List Byte) :
    (s.polled bs).fifo.head =
      (s.fifo.head + (s.q.length + bs.length - s.cfg.capacity) + (s.pollScan bs).2) % s.cfg.capacity := by
  have hhead := Fifo.appendAll_head hs.capacity_pos bs hs.fifo
  simp only [State.polled_fifo, State.polledFifo, Fifo.drain, hhead, Nat.mod_add_mod, State.q_length]

/-- A pass writes only the cells that the bytes read go to (R111). -/
theorem State.polled_cellsKept {s : State} (hs : s.Inv) (bs : List Byte) : CellsKept s (s.polled bs) bs.length :=
  fun _ ha => Fifo.appendAll_kept hs.capacity_pos bs hs.fifo ha

/-- The cache after a batch (R150 step 5). -/
theorem newestOr_eq_ite (out : List Packet) (last : Option Packet) :
    newestOr out last = if out = [] then last else out.getLast? := by
  rcases out.eq_nil_or_concat with rfl | ⟨out, p, rfl⟩ <;> simp [newestOr]

/-- Settles O39: a failure ends POLL before its pass, and the scan of the pass is that of the last `C` bytes. -/
theorem pollAppendsScansDrainsCaches : Obligations.PollAppendsScansDrainsCaches := by
  intro s a rest hs hi hr hle
  have henv := Env.afterRead_of_reads hr
  have hscan := State.scan_of_idle hi
  have hw := State.waiting_of_idle hi
  refine ⟨fun p hp => by simp [decode, decodePort, hp], _, exec_poll_of_reads hr hle hi, ?_⟩
  cases a with
  | fail => exact ⟨henv, rfl, hscan, hw, rfl, rfl, fun _ => ⟨rfl, rfl, rfl⟩, nofun⟩
  | data bs =>
    refine ⟨henv, rfl, hscan, hw, rfl, rfl, nofun, ?_⟩
    rintro _ ⟨⟩
    have hwindow := State.pollScan_eq hs bs
    have hq : (s.polled bs).q = (lastOf s.cfg.capacity s.q bs).drop (s.pollScan bs).2 := by
      rw [State.polled_q hs, hwindow]
    exact ⟨lastOf s.cfg.capacity s.q bs, s.pollPackets bs, (s.pollScan bs).2, rfl, hwindow,
      hwindow ▸ scanWindow_le _, hq, newestOr_eq_ite _ _, rfl, State.polled_head hs bs, State.polled_cellsKept hs bs⟩

/-- Settles O41: a pass leaves at most four bytes, and over at most four bytes it decodes and drains nothing. -/
theorem pollWithoutDataIsIdempotent : Obligations.PollWithoutDataIsIdempotent := by
  refine ⟨fun s t out hs h hresp => ?_, fun t rest ht hi hq hr => ?_⟩
  · obtain ⟨-, h⟩ := State.whenIdle_next h
    obtain ⟨-, rfl⟩ := State.withRead_next h
    cases ha : s.readAnswer with
    | fail => simp [ha, State.pollAnswered] at hresp
    | data bs => exact State.polled_q_length hs bs
  · have hall : lastOf t.cfg.capacity t.q [] = t.q := by
      simp [lastOf, Nat.sub_eq_zero_of_le ht.q_length_le]
    have hpass := State.pollScan_eq ht []
    rw [hall, scanWindow_short hq] at hpass
    have hout : t.pollPackets [] = [] := congrArg Prod.fst hpass
    refine ⟨_, exec_poll_of_reads hr (Nat.zero_le _) hi, congrArg (t.responses ++ [.packets ·]) hout, ?_, ?_⟩
    · exact (State.polled_q ht []).trans (by rw [hall, scanWindow_short hq, List.drop_zero])
    · exact congrArg (newestOr · t.last) hout

/-! ## POLL against APPENDS, SCAN, DRAIN -/

/-- Every run keeps the invariant. -/
theorem run_keeps_inv {s t : State} {n : Nat} (hs : s.Inv) (h : run n s = .next t) : t.Inv := by
  induction n generalizing s with
  | zero => cases h; exact hs
  | succ n ih =>
    obtain ⟨v, hv, h⟩ := run_succ_next h
    exact ih (stepKeepsInvariant s v hs hv) h

/-- Settles O42: the run appends, scans and drains what the pass of POLL does, and writes no cache. -/
theorem pollIsAppendsScanDrain : Obligations.PollIsAppendsScanDrain := by
  intro s t u bs w reads host hs hi hle hw hpoll hrun
  obtain ⟨⟩ := hpoll.symm.trans (step_issuePoll hi rfl rfl hle)
  have hs' := State.setHost_inv hs (appends bs ++ (scanDrain w ++ host))
  obtain ⟨v, hv, hvq, hvresp, hvhost, -, hvlast, hvscan, hvwait, -, -⟩ :=
    repeatedAppendsKeepLastBytes _ bs (scanDrain w ++ host) hs' hi rfl
  have hvw : v.q = w := hvq.trans hw.symm
  obtain ⟨u', hu, huq, -, -, huresp, hulast, -⟩ :=
    drainedScanLeavesAtMostFourBytes v host (run_keeps_inv hs' hv) (by simp [hvscan, hvwait]) (by rw [hvw, hvhost])
  rw [List.append_assoc] at hrun
  obtain ⟨⟩ := (run_append _ 2 hv hu).symm.trans hrun
  have hpackets : s.pollPackets bs = (scanWindow w).1 := by rw [State.pollPackets_eq hs, hw, lastOf]
  have hpolled : (s.polled bs).q = w.drop (scanWindow w).2 := by rw [State.polled_q hs, hw, lastOf]
  rw [hvw] at huq huresp
  exact ⟨hpolled.trans huq.symm, hulast.trans hvlast, congrArg (newestOr · s.last) hpackets,
    congrArg (s.responses ++ [.packets ·]) hpackets, huresp.trans (congrArg (· ++ _) hvresp)⟩

/-! ## One iteration of READ_LATEST -/

theorem State.latestAnswered_of_newest {s : State} {bs : List Byte} {p : Packet}
    (h : (s.pollPackets bs).getLast? = some p) :
    State.latestAnswered (.data bs) s =
      ((s.polled bs).setWaiting false).respond (.reading (some { packet := p, fresh := true })) := by
  simp [State.latestAnswered, h]

theorem State.latestAnswered_of_nothing {s : State} {bs : List Byte} (h : s.pollPackets bs = []) :
    State.latestAnswered (.data bs) s = (s.polled bs).timeCheck := by
  simp [State.latestAnswered, h]

theorem State.timeCheck_of_expired {s : State} (h : s.expiredAnswer = true) :
    s.timeCheck = (s.afterExpired.setWaiting false).respond
      (.reading (s.last.map fun p => { packet := p, fresh := false })) := by
  simp [State.timeCheck, h]

theorem State.timeCheck_of_not_expired {s : State} (h : s.expiredAnswer = false) :
    s.timeCheck = s.afterExpired.setWaiting true := by
  simp [State.timeCheck, h]

/-- The environment once a read answer and an answer of the clock are drawn. -/
theorem Env.afterRead_afterExpired {e : Env} {a : ReadAnswer} {x : Bool} {reads : List ReadAnswer} {expired : List Bool}
    (hr : e.reads = a :: reads) (hx : e.expired = x :: expired) :
    e.afterRead.afterExpired = { e with reads := reads, expired := expired } := by
  rw [Env.afterRead_of_reads hr]
  exact Env.afterExpired_of_expired hx

theorem State.afterRead_expiredAnswer {s : State} {a : ReadAnswer} {x : Bool} {reads : List ReadAnswer}
    {expired : List Bool} (hr : s.env.reads = a :: reads) (hx : s.env.expired = x :: expired) :
    s.afterRead.expiredAnswer = x :=
  State.expiredAnswer_of_expired (s := s.afterRead) ((congrArg Env.expired (Env.afterRead_of_reads hr)).trans hx)

/-- Settles O46: the batch decides, and the clock is not asked. -/
theorem readLatestReturnsFreshNewest : Obligations.ReadLatestReturnsFreshNewest := by
  intro s bs rest p hs hi hr hle hp
  have hscan := State.scan_of_idle hi
  rw [← State.pollPackets_eq hs] at hp
  have hexec := exec_readLatest_of_reads hr hle hi
  rw [State.latestAnswered_of_newest (s := s.afterRead) hp] at hexec
  exact ⟨_, hexec, rfl, newestOr_of_getLast hp _, rfl, Env.afterRead_of_reads hr, State.polled_q hs bs, rfl,
    hscan, rfl, rfl, State.polled_cellsKept hs bs⟩

section
variable {s : State} {bs : List Byte} {reads : List ReadAnswer} (hs : s.Inv)
  (hnone : (scanWindow (lastOf s.cfg.capacity s.q bs)).1 = [])
include hs hnone

/-- A pass that decodes nothing leaves the cache as it is (R152). -/
theorem State.polled_last_of_nothing : (s.polled bs).last = s.last := by
  rw [State.polled_last, State.pollPackets_eq hs, hnone, newestOr_nil]

/-- After a pass that decodes nothing READ_LATEST asks the clock (R158). -/
theorem exec_readLatest_of_nothing (hi : s.idle = true) (hr : s.env.reads = .data bs :: reads)
    (hle : bs.length ≤ s.cfg.chunkMax) : exec .readLatest s = .next (s.afterRead.polled bs).timeCheck := by
  rw [exec_readLatest_of_reads hr hle hi,
    State.latestAnswered_of_nothing (s := s.afterRead) ((State.pollPackets_eq hs bs).trans hnone)]

end

/-- Settles O47: the clock ends the call with what is cached. -/
theorem readLatestFallsBackToCache : Obligations.ReadLatestFallsBackToCache := by
  intro s bs reads expired hs hi hr hle hx hnone
  have hscan := State.scan_of_idle hi
  have hlast := State.polled_last_of_nothing hs hnone
  have hexec := exec_readLatest_of_nothing hs hnone hi hr hle
  rw [State.timeCheck_of_expired (s := s.afterRead.polled bs) (State.afterRead_expiredAnswer hr hx)] at hexec
  refine ⟨_, (s.polled bs).last.map fun p => { packet := p, fresh := false }, hexec, rfl, ?_, ?_, hlast, rfl,
    Env.afterRead_afterExpired hr hx, State.polled_q hs bs, rfl, hscan, rfl, rfl,
    State.polled_cellsKept hs bs⟩
  · intro h; rw [hlast, h, Option.map_none]
  · intro p h; rw [hlast, h, Option.map_some]

/-- Settles O48: the clock lets the loop go on. -/
theorem readLatestRetriesWithinBudget : Obligations.ReadLatestRetriesWithinBudget := by
  intro s bs reads expired hs hi hr hle hx hnone
  have hscan := State.scan_of_idle hi
  have hlast := State.polled_last_of_nothing hs hnone
  have hexec := exec_readLatest_of_nothing hs hnone hi hr hle
  rw [State.timeCheck_of_not_expired (s := s.afterRead.polled bs) (State.afterRead_expiredAnswer hr hx)] at hexec
  exact ⟨_, hexec, rfl, rfl, hlast, Env.afterRead_afterExpired hr hx, State.polled_q hs bs, rfl, hscan, rfl, rfl,
    State.polled_cellsKept hs bs⟩

/-- Settles O49: the first iteration and the later ones are the same step. -/
theorem readLatestPropagatesFailure : Obligations.ReadLatestPropagatesFailure := by
  intro s rest hscan hr hcall
  have hat : s.AtReadLatest := by
    cases hw : s.waiting with
    | true => exact .inl hw
    | false =>
      obtain ⟨moves, hh⟩ := hcall.resolve_left (by simp [hw])
      exact .inr ⟨by simp [hscan, hw], selectPort 6, moves, hh, rfl⟩
  obtain ⟨moves, hstep⟩ := step_of_readLatest hat
  have hiter := State.latestIteration_of_reads (s := s.setHost moves) (a := .fail) hr (Nat.zero_le _)
  exact ⟨_, hstep.trans hiter, rfl, rfl, rfl, rfl, rfl, Env.afterRead_of_reads hr⟩

/-! ## What writes `LAST` -/

/-- A read in `s` gave bytes of which a pass decodes packets, and `t` caches the newest of these (R152). -/
def State.CachesNewest (s t : State) : Prop :=
  ∃ bs p, s.readAnswer = .data bs ∧ (s.pollPackets bs).getLast? = some p ∧ t.last = some p

/-- A pass leaves the cache, or caches the newest packet it decoded. -/
theorem State.polled_last_or_cachesNewest {s : State} {bs : List Byte} (ha : s.readAnswer = .data bs) :
    (s.polled bs).last = s.last ∨ s.CachesNewest (s.polled bs) := by
  rcases State.polled_last_cases s bs with ⟨-, e⟩ | ⟨p, hp, e⟩
  · exact .inl e
  · exact .inr ⟨bs, p, ha, hp, e⟩

theorem execPoll_last {s t : State} (h : execPoll s = .next t) : t.last = s.last ∨ s.CachesNewest t := by
  obtain ⟨-, h⟩ := State.whenIdle_next h
  obtain ⟨-, rfl⟩ := State.withRead_next h
  cases ha : s.readAnswer with
  | fail => exact .inl rfl
  | data bs => exact State.polled_last_or_cachesNewest ha

/-- The time check writes no cache (R158). -/
@[simp] theorem State.timeCheck_last (s : State) : s.timeCheck.last = s.last := by
  rcases State.timeCheck_cases s with ⟨-, e⟩ | ⟨-, e⟩ <;> simp [e]

theorem State.latestIteration_last {s t : State} (h : s.latestIteration = .next t) :
    t.last = s.last ∨ s.CachesNewest t := by
  obtain ⟨-, rfl⟩ := State.withRead_next h
  rcases State.latestAnswered_cases s.readAnswer s.afterRead with
    ⟨-, e⟩ | ⟨bs, p, ha, -, e⟩ | ⟨bs, ha, -, e⟩ <;> rw [e]
  · exact .inl rfl
  · exact State.polled_last_or_cachesNewest ha
  · unfold State.CachesNewest
    rw [State.timeCheck_last]
    exact State.polled_last_or_cachesNewest ha

/-- A part of the state that no response, no scan, no FIFO write and no frame handed over writes. -/
structure KeptOutsideReads {α : Type} (f : State → α) : Prop where
  respond : ∀ s a, f (s.respond a) = f s
  setScan : ∀ s r, f (s.setScan r) = f s
  setFifo : ∀ s g, f (s.setFifo g) = f s
  afterWrite : ∀ s bs, f (s.afterWrite bs) = f s

theorem KeptOutsideReads.last : KeptOutsideReads State.last :=
  ⟨State.respond_last, State.setScan_last, State.setFifo_last, State.afterWrite_last⟩

section
variable {α : Type} {f : State → α} (hf : KeptOutsideReads f)
include hf

namespace KeptOutsideReads

theorem raise (s : State) (e : Err) : f (s.raise e) = f s := hf.respond s (.err e)

theorem closeScan (s : State) (r : ScanRun) : f (s.closeScan r) = f s :=
  (hf.respond _ _).trans (hf.setScan s none)

theorem respondOrRaise {β : Type} (s : State) (ok : β → Response) (x : Except Err β) :
    f (s.respondOrRaise ok x) = f s := by
  rcases State.respondOrRaise_cases s ok x with ⟨_, -, e⟩ | ⟨_, -, e⟩ <;> rw [e]
  · exact hf.respond _ _
  · exact hf.raise _ _

theorem send (s : State) (bs : List Byte) : f (s.send bs) = f s := by
  rcases State.send_cases s bs with ⟨-, e⟩ | ⟨-, e⟩ <;> rw [e]
  · exact (hf.respond _ _).trans (hf.afterWrite s bs)
  · exact (hf.raise _ _).trans (hf.afterWrite s bs)

theorem execDrain {s t : State} {n : Nat} (h : execDrain n s = .next t) : f t = f s := by
  refine State.whenIdle_keeps f h ?_
  split
  · exact hf.raise _ _
  · exact (hf.respond _ _).trans (hf.setFifo _ _)

theorem streamStep {s t : State} {bytes : List Byte} {g : ScanRun → ScanRun} (h : s.streamStep bytes g = .next t) :
    f t = f s := by
  unfold State.streamStep at h
  split at h
  · split at h
    · cases h
    · cases h; exact hf.setScan _ _
  · exact State.whenIdle_keeps f h (hf.closeScan _ _)

theorem execFrameStd {s t : State} {payload : List Byte} (h : execFrameStd payload s = .next t) : f t = f s := by
  unfold Machine.execFrameStd at h
  split at h
  · cases h; exact hf.setScan _ _
  · exact State.whenIdle_keeps f h (hf.closeScan _ _)

end KeptOutsideReads

/-- Such a part is kept by every instruction that does not read the transport. -/
theorem exec_keeps_or_reads {i : Instr} {s t : State} (h : exec i s = .next t) :
    f t = f s ∨ i = .poll ∨ i = .readLatest := by
  cases i with
  | append b => exact .inl (State.whenIdle_keeps f h ((hf.respond _ _).trans (hf.setFifo _ _)))
  | drain n => exact .inl (hf.execDrain h)
  | snapshot => exact .inl (State.whenIdle_keeps f h (hf.respond _ _))
  | scan => exact .inl (State.whenIdle_keeps f h (hf.respond _ _))
  | poll => exact .inr (.inl rfl)
  | readLatest => exact .inr (.inr rfl)
  | buildCommand code params => exact .inl (State.whenIdle_keeps f h (hf.respondOrRaise _ _ _))
  | sendMode m => exact .inl (State.whenIdle_keeps f h (hf.send _ _))
  | reserved0 => exact .inl (State.whenIdle_keeps f h (hf.raise _ _))
  | reserved9F op => exact .inl (State.whenIdle_keeps f h (hf.raise _ _))
  | frameMin state lo hi => exact .inl (hf.streamStep h)
  | skip b0 b1 b2 b3 b4 => exact .inl (hf.streamStep h)
  | cmd code params => exact .inl (State.whenIdle_keeps f h (hf.respondOrRaise _ _ _))
  | cmdSetMin => exact .inl (State.whenIdle_keeps f h (hf.respond _ _))
  | cmdSetStd => exact .inl (State.whenIdle_keeps f h (hf.respond _ _))
  | frameStd payload => exact .inl (hf.execFrameStd h)

end

/-- POLL and READ_LATEST alone write the cache (R152). -/
theorem exec_last {i : Instr} {s t : State} (h : exec i s = .next t) :
    t.last = s.last ∨ (i = .poll ∨ i = .readLatest) ∧ s.CachesNewest t := by
  rcases exec_keeps_or_reads .last h with e | rfl | rfl
  · exact .inl e
  · exact (execPoll_last h).imp_right fun hc => ⟨.inl rfl, hc⟩
  · exact (State.latestIteration_last (State.whenIdle_next h).2).imp_right fun hc => ⟨.inr rfl, hc⟩

/-- Select code 5 alone is POLL (R91). -/
theorem op_of_decodePort_poll {c : Nat} {p : PortIn} (h : decodePort c p = .ok .poll) : p.op = 5 := by
  unfold decodePort at h
  split at h
  case h_6 hop => exact BitVec.eq_of_toNat_eq hop
  case h_3 => split at h <;> cases h
  case h_8 => split at h <;> cases h
  all_goals cases h

/-- No frame of the table is POLL or READ_LATEST: these are operations of the port (R91). -/
theorem decodeFrame_ne_poll_or_readLatest (bs : List Byte) :
    decodeFrame bs ≠ .ok .poll ∧ decodeFrame bs ≠ .ok .readLatest := by
  unfold decodeFrame decodeCmdFrame decodeStdFrame
  split_ifs <;> simp

/-- A step leaves the cache, or is the reset event, or an iteration of POLL or READ_LATEST that caches the newest packet
it decoded (R152). -/
theorem step_last {s t : State} (h : step s = .next t) :
    t.last = s.last ∨
    (∃ handle maxWait rest, s.fetch = .reset handle maxWait (s.setHost rest) ∧ t.last = none) ∨
    (s.CachesNewest t ∧ (s.waiting = true ∨ ∃ p rest, s.host = .op p :: rest ∧ (p.op = 5 ∨ p.op = 6))) := by
  rcases step_cases h with ⟨hw, h⟩ | ⟨_, -, -, -, rfl⟩ | ⟨_, -, -, -, rfl⟩ | ⟨p, rest, i, -, hh, hd, h⟩ |
    ⟨bs, rest, i, -, -, hd, h⟩ | ⟨handle, maxWait, rest, hi, hh, rfl⟩ | ⟨-, -, rfl⟩
  · exact (State.latestIteration_last h).imp_right fun hc => .inr ⟨hc, .inl hw⟩
  · exact .inl rfl
  · exact .inl rfl
  · refine (exec_last h).imp_right fun ⟨hread, hc⟩ => .inr ⟨hc, .inr ⟨p, rest, hh, ?_⟩⟩
    rcases hread with rfl | rfl
    · exact .inl (op_of_decodePort_poll hd)
    · exact .inr (op_of_decodePort_readLatest hd)
  · obtain ⟨hpoll, hlatest⟩ := decodeFrame_ne_poll_or_readLatest bs
    refine (exec_last h).imp_right fun ⟨hread, _⟩ => ?_
    rcases hread with rfl | rfl
    · exact absurd hd hpoll
    · exact absurd hd hlatest
  · exact .inr (.inl ⟨handle, maxWait, rest, (State.fetch_of_idle hi).trans (State.nextMove_of_reset hh), rfl⟩)
  · exact .inl rfl

/-- Settles O44: what a step does to the cache, with the batch written as the scan of the last `C` bytes. -/
theorem lastChangesOnlyByPollOrReset : Obligations.LastChangesOnlyByPollOrReset := by
  intro s t hs h hne
  rcases step_last h with e | ⟨handle, maxWait, rest, hf, hlast⟩ | ⟨⟨bs, p, ha, hp, hlast⟩, hread⟩
  · exact absurd e hne
  · exact .inl ⟨handle, maxWait, _, hf, hlast⟩
  · exact .inr ⟨bs, p, ha, (State.pollPackets_eq hs bs) ▸ hp, hlast, hread⟩

/-! ## What one iteration of READ_LATEST answers -/

/-- The next read answer gives bytes of which a pass decodes nothing (R158). -/
def State.DecodesNothing (s : State) : Prop := ∃ bs, s.readAnswer = .data bs ∧ s.pollPackets bs = []

theorem State.DecodesNothing.scan {s : State} (h : s.DecodesNothing) (hs : s.Inv) {bs : List Byte}
    (ha : s.readAnswer = .data bs) : (scanWindow (lastOf s.cfg.capacity s.q bs)).1 = [] := by
  obtain ⟨bs', ha', hnone⟩ := h
  obtain ⟨⟩ := ha'.symm.trans ha
  rwa [State.pollPackets_eq hs] at hnone

/-- `t` comes from `s` by an iteration that answered nothing: READ_LATEST goes on, since nothing was decoded and the clock
answered `false` (R158). -/
structure State.GoesOn (s t : State) : Prop where
  waiting : t.waiting = true
  responses : t.responses = s.responses
  cfg : t.cfg = s.cfg
  last : t.last = s.last
  env : t.env = s.env.afterRead.afterExpired
  nothing : s.DecodesNothing
  clock : s.afterRead.expiredAnswer = false

/-- The ways in which an iteration from `s` to `t` ends READ_LATEST, each with its response (R158). -/
inductive State.Ends (s t : State) : Response → Prop where
  | failed : State.Ends s t (.err .transportReadFailure)
  | fresh (bs : List Byte) (p : Packet) (ha : s.readAnswer = .data bs) (hp : (s.pollPackets bs).getLast? = some p)
    (hlast : t.last = some p) : State.Ends s t (.reading (some { packet := p, fresh := true }))
  | stale (hnone : s.DecodesNothing) (hlast : t.last = s.last) :
    State.Ends s t (.reading (s.last.map fun p => { packet := p, fresh := false }))

theorem State.Ends.response {s t : State} {a : Response} (h : s.Ends t a) :
    a = .err .transportReadFailure ∨ ∃ r, a = .reading r := by
  cases h with
  | failed => exact .inl rfl
  | fresh => exact .inr ⟨_, rfl⟩
  | stale => exact .inr ⟨_, rfl⟩

/-- An iteration that answers a Reading: fresh, the newest packet decoded, or stale, the one cached (R160). -/
theorem State.Ends.of_reading {s t : State} {r : Reading} (h : s.Ends t (.reading (some r))) :
    (r.fresh = true ∧ t.last = some r.packet ∧
      ∃ bs, s.readAnswer = .data bs ∧ (s.pollPackets bs).getLast? = some r.packet) ∨
    (r.fresh = false ∧ s.last = some r.packet ∧ t.last = s.last ∧ s.DecodesNothing) := by
  generalize ha : Response.reading (some r) = a at h
  cases h with
  | failed => cases ha
  | fresh bs p hbs hp hlast => cases ha; exact .inl ⟨rfl, hlast, bs, hbs, hp⟩
  | stale hnone hlast =>
    injection ha with ha
    obtain ⟨p, hp, rfl⟩ := Option.map_eq_some_iff.mp ha.symm
    exact .inr ⟨rfl, hp, hlast, hnone⟩

/-- Everything one iteration of READ_LATEST can do, seen from before the host's move is taken (R158): it goes on, or ends
the call with one response. -/
theorem State.latestIteration_goesOn_or_ends {s t : State} {moves : List Request}
    (h : (s.setHost moves).latestIteration = .next t) :
    s.GoesOn t ∨ t.waiting = false ∧ ∃ a, t.responses = s.responses ++ [a] ∧ s.Ends t a := by
  obtain ⟨-, rfl⟩ := State.withRead_next h
  rcases State.latestAnswered_cases (s.setHost moves).readAnswer (s.setHost moves).afterRead with
    ⟨-, e⟩ | ⟨bs, p, ha, hp, e⟩ | ⟨bs, ha, hp, e⟩ <;> rw [e]
  · exact .inr ⟨rfl, _, rfl, .failed⟩
  · exact .inr ⟨rfl, _, rfl, .fresh bs p ha hp (newestOr_of_getLast hp _)⟩
  · have hnone : s.DecodesNothing := ⟨bs, ha, hp⟩
    have hlast : ((s.setHost moves).afterRead.polled bs).last = s.last := congrArg (newestOr · s.last) hp
    rcases State.timeCheck_cases ((s.setHost moves).afterRead.polled bs) with ⟨-, e⟩ | ⟨hx, e⟩ <;> rw [e]
    · rw [hlast]
      exact .inr ⟨rfl, _, rfl, .stale hnone hlast⟩
    · exact .inl ⟨rfl, rfl, rfl, hlast, rfl, hnone, hx⟩

/-- Settles O40: within the contract there is a next state, and each kind of it is one of those listed. -/
theorem pollAndReadLatestAlwaysAnswer : Obligations.PollAndReadLatestAlwaysAnswer := by
  intro s hi hc
  have hw := State.waiting_of_idle hi
  refine ⟨?_, ?_⟩
  · rw [exec_poll_of_contract hi hc]
    cases s.readAnswer with
    | fail => exact ⟨_, _, rfl, rfl, hw, .inl rfl⟩
    | data bs => exact ⟨_, _, rfl, rfl, hw, .inr ⟨_, rfl⟩⟩
  · have hiter := State.latestIteration_of_contract hc
    refine ⟨_, (State.whenIdle_of_idle hi _).trans hiter, ?_⟩
    rcases State.latestIteration_goesOn_or_ends (moves := s.host) hiter with hgo | ⟨hdone, a, hresp, hend⟩
    · exact .inl ⟨hgo.waiting, hgo.responses⟩
    · exact .inr ⟨hdone, a, hresp, hend.response⟩

/-! ## A whole call of READ_LATEST -/

/-- Everything the step of a READ_LATEST can do, issued or waiting (R158). -/
theorem step_readLatest_goesOn_or_ends {s t : State} (hat : s.AtReadLatest) (h : step s = .next t) :
    s.GoesOn t ∨ t.waiting = false ∧ ∃ a, t.responses = s.responses ++ [a] ∧ s.Ends t a := by
  obtain ⟨moves, hstep⟩ := step_of_readLatest hat
  exact State.latestIteration_goesOn_or_ends (hstep.symm.trans h)

theorem step_readLatest_of_reads {s : State} {r : ReadAnswer} {reads : List ReadAnswer} (hat : s.AtReadLatest)
    (hr : s.env.reads = r :: reads) (hle : readSize r ≤ s.cfg.chunkMax) :
    ∃ t, step s = .next t ∧
      (s.GoesOn t ∨ t.waiting = false ∧ ∃ a, t.responses = s.responses ++ [a] ∧ s.Ends t a) := by
  obtain ⟨moves, hstep⟩ := step_of_readLatest hat
  have h := hstep.trans (State.latestIteration_of_reads (s := s.setHost moves) hr hle)
  exact ⟨_, h, step_readLatest_goesOn_or_ends hat h⟩

/-- A call whose clock answers `false` `n` times and then `true` ends within `n + 1` iterations (R159, R163): each
iteration that goes on takes one `false` from the clock and one answer from the transport. -/
theorem run_readLatest_ends {s : State} {n : Nat} {expired : List Bool} (hat : s.AtReadLatest)
    (hx : s.env.expired = List.replicate n false ++ true :: expired) (hlen : n < s.env.reads.length)
    (hle : ∀ r ∈ s.env.reads, readSize r ≤ s.cfg.chunkMax) :
    ∃ m t a, m ≤ n + 1 ∧ run m s = .next t ∧ t.waiting = false ∧ t.responses = s.responses ++ [a] ∧
      (a = .err .transportReadFailure ∨ ∃ r, a = .reading r) := by
  induction n generalizing s with
  | zero =>
    obtain ⟨r, reads, hr⟩ := List.exists_cons_of_length_pos hlen
    obtain ⟨t, hstep, hgo | ⟨hdone, a, hresp, hend⟩⟩ := step_readLatest_of_reads hat hr (hle r (by simp [hr]))
    · have hclock : s.afterRead.expiredAnswer = true := State.afterRead_expiredAnswer hr hx
      rw [hgo.clock] at hclock
      cases hclock
    · exact ⟨1, t, a, le_rfl, run_one hstep, hdone, hresp, hend.response⟩
  | succ n ih =>
    obtain ⟨r, reads, hr⟩ := List.exists_cons_of_length_pos (Nat.zero_lt_of_lt hlen)
    obtain ⟨t, hstep, hgo | ⟨hdone, a, hresp, hend⟩⟩ := step_readLatest_of_reads hat hr (hle r (by simp [hr]))
    · have henv := hgo.env.trans (Env.afterRead_afterExpired hr hx)
      rw [hr] at hlen hle
      obtain ⟨m, u, a, hm, hrun, hdone, hresp, ha⟩ := ih (.inl hgo.waiting) (congrArg Env.expired henv)
        (by rw [henv]; exact Nat.lt_of_succ_lt_succ hlen)
        (by rw [henv, hgo.cfg]; exact fun r' hr' => hle r' (List.mem_cons_of_mem r hr'))
      exact ⟨m + 1, u, a, Nat.succ_le_succ hm, (run_succ m hstep).trans hrun, hdone, hgo.responses ▸ hresp, ha⟩
    · exact ⟨1, t, a, by omega, run_one hstep, hdone, hresp, hend.response⟩

/-- Settles O50: the bound holds in every state, whether or not it meets the invariant. -/
theorem readLatestEndsWhenBudgetIsUsedUp : Obligations.ReadLatestEndsWhenBudgetIsUsedUp :=
  fun _ _ _ _ hat hx hlen hle => run_readLatest_ends hat hx hlen hle

section
variable {s : State} {n : Nat} (hat : s.AtReadLatest)
  (hwait : ∀ m, 1 ≤ m → m ≤ n → ∃ v, run m s = .next v ∧ v.waiting = true)
include hat hwait

/-- While a READ_LATEST waits, each next step is another iteration of it. -/
theorem run_atReadLatest {m : Nat} (hm : m ≤ n) {v : State} (hv : run m s = .next v) : v.AtReadLatest := by
  cases m with
  | zero => cases hv; exact hat
  | succ m =>
    obtain ⟨v', hv', hw⟩ := hwait (m + 1) (Nat.succ_pos m) hm
    obtain ⟨⟩ := hv'.symm.trans hv
    exact .inl hw

/-- Each iteration but the last goes on. -/
theorem run_goesOn {m : Nat} (hm : m < n) {v : State} (hv : run m s = .next v) :
    ∃ v', run (m + 1) s = .next v' ∧ v.GoesOn v' := by
  obtain ⟨v', hv', hw⟩ := hwait (m + 1) (Nat.succ_pos m) hm
  obtain ⟨w, hrun, hone⟩ := run_add m 1 hv'
  obtain ⟨⟩ := hrun.symm.trans hv
  obtain ⟨_, hstep, ⟨⟩⟩ := run_succ_next hone
  rcases step_readLatest_goesOn_or_ends (run_atReadLatest hat hwait hm.le hv) hstep with hgo | ⟨hdone, -⟩
  · exact ⟨v', hv', hgo⟩
  · rw [hw] at hdone
    cases hdone

/-- While a READ_LATEST waits nothing is answered and nothing is cached (R152, R158). -/
theorem run_waiting_keeps {m : Nat} (hm : m ≤ n) {v : State} (hv : run m s = .next v) :
    v.last = s.last ∧ v.responses = s.responses := by
  induction m generalizing v with
  | zero => cases hv; exact ⟨rfl, rfl⟩
  | succ m ih =>
    obtain ⟨w, hw, -⟩ := run_add m 1 hv
    obtain ⟨v', hv', hgo⟩ := run_goesOn hat hwait hm hw
    obtain ⟨⟩ := hv'.symm.trans hv
    obtain ⟨hlast, hresp⟩ := ih (Nat.le_of_succ_le hm) hw
    exact ⟨hgo.last.trans hlast, hgo.responses.trans hresp⟩

end

/-- Settles O51: the iterations that went on decoded nothing and left the cache, so that the last one decides. -/
theorem freshExactlyWhenDecodedDuringCall : Obligations.FreshExactlyWhenDecodedDuringCall := by
  intro s u t n r hs hat hwait hrun hstep hdone hresp
  have hu := run_keeps_inv hs hrun
  obtain ⟨hlast, hkept⟩ := run_waiting_keeps hat hwait le_rfl hrun
  rcases step_readLatest_goesOn_or_ends (run_atReadLatest hat hwait le_rfl hrun) hstep with hgo | ⟨-, a, ha, hend⟩
  · rw [hgo.waiting] at hdone
    cases hdone
  · rw [ha, hkept] at hresp
    obtain ⟨⟩ := List.append_cancel_left hresp
    rcases hend.of_reading with ⟨hfresh, hcached, bs, hbs, hp⟩ | ⟨hstale, hold, hcached, hnone⟩
    · rw [State.pollPackets_eq hu] at hp
      have hne : (scanWindow (lastOf u.cfg.capacity u.q bs)).1 ≠ [] := List.ne_nil_of_mem (List.mem_of_getLast? hp)
      exact ⟨iff_of_true hfresh ⟨n, u, bs, le_rfl, hrun, hbs, hne⟩, fun _ => ⟨⟨bs, hbs, hp⟩, hcached⟩,
        fun h => absurd h (by simp [hfresh])⟩
    · have hno : ¬ r.fresh = true := by simp [hstale]
      refine ⟨iff_of_false hno ?_, fun h => absurd h hno, fun _ => ⟨hlast ▸ hold, hcached.trans hlast⟩⟩
      rintro ⟨m, v, bs, hm, hv, hbs, hne⟩
      have hv_none : v.DecodesNothing := by
        rcases hm.lt_or_eq with hlt | rfl
        · obtain ⟨_, -, hgo⟩ := run_goesOn hat hwait hlt hv
          exact hgo.nothing
        · obtain ⟨⟩ := hv.symm.trans hrun
          exact hnone
      exact absurd (hv_none.scan (run_keeps_inv hs hv) hbs) hne

end Sys2Proof.Machine
end

section
/-! PROOF. The frame encoder (spec/43_frame_encoder.md): BUILD_COMMAND's frame and how it reads back, and SEND_MODE's
answer. -/

namespace Sys2Proof.Machine

/-! ## BUILD_COMMAND -/

/-- The two bytes of a 16-bit value, read as a little-endian number (R88). -/
theorem loByte_add_hiByte (h : Half) : (loByte h).toNat + 256 * (hiByte h).toNat = h.toNat := by
  rw [← le16_toNat, le16_bytes]

/-- The length field of a frame BUILD_COMMAND emits does not wrap (R172). -/
theorem lengthField_toNat {params : List Byte} (h : params.length ≤ 65533) :
    (BitVec.ofNat 16 (2 + params.length)).toNat = 2 + params.length := by
  rw [BitVec.toNat_ofNat]
  exact Nat.mod_eq_of_lt (by omega)

theorem buildCommand_of_gt (code : Half) {params : List Byte} (h : 65533 < params.length) :
    buildCommand code params = .error (.lengthRange params.length) := if_pos h

/-- BUILD_COMMAND emits nothing but the frame of R82, and only with at most 65533 parameters (R170, R172). -/
theorem buildCommand_eq_ok {code : Half} {params frame : List Byte} (h : buildCommand code params = .ok frame) :
    params.length ≤ 65533 ∧ frame = encodeCmdFrame code params := by
  rcases Nat.lt_or_ge 65533 params.length with hgt | hle
  · rw [buildCommand_of_gt code hgt] at h
    cases h
  · rw [buildCommand_of_le code hle] at h
    cases h
    exact ⟨hle, rfl⟩

theorem exec_buildCommand_of_idle {s : State} (hi : s.idle = true) (code : Half) (params : List Byte) :
    exec (.buildCommand code params) s = .next (s.respondOrRaise .frame (buildCommand code params)) :=
  State.whenIdle_of_idle hi _

/-- To answer writes neither the block's state nor the environment's (R6). -/
theorem State.respond_sameBlock (s : State) (r : Response) : SameBlock s (s.respond r) := ⟨rfl, rfl, rfl, rfl, rfl⟩

theorem State.respond_sameWorld (s : State) (r : Response) : SameWorld s (s.respond r) := ⟨rfl, rfl, rfl⟩

/-- Settles O52: the two clauses are BUILD_COMMAND's two outcomes, and either is a response and nothing else. -/
theorem buildCommandReturnsFrameOrLengthRange : Obligations.BuildCommandReturnsFrameOrLengthRange := by
  intro s code params hi
  have hx := exec_buildCommand_of_idle hi code params
  refine ⟨fun p hop hlen => by simp [decode, decodePort, hop, hlen], fun hle => ?_, fun hgt => ?_⟩
  · rw [buildCommand_of_le code hle] at hx
    exact ⟨_, _, _, _, _, hx, rfl, (loByte_add_hiByte _).trans (lengthField_toNat hle), loByte_add_hiByte code,
      s.respond_sameBlock _, s.respond_sameWorld _⟩
  · rw [buildCommand_of_gt code hgt] at hx
    exact ⟨_, hx, rfl, s.respond_sameBlock _, s.respond_sameWorld _⟩

/-- Settles O53: an emitted frame is the encoder's, whose fields the decoder's lemmas read. -/
theorem commandFrameReadsBack : Obligations.CommandFrameReadsBack := by
  intro code params frame h
  obtain ⟨hle, rfl⟩ := buildCommand_eq_ok h
  refine ⟨encodeCmdFrame_length code params, encodeCmdFrame_field code hle, encodeCmdFrame_code code params, ?_⟩
  rw [encodeCmdFrame_drop, List.take_left]

/-! ## SEND_MODE -/

/-- The response to a write answer (R174, R187). -/
def writeResponse (a : WriteAnswer) : Response := if a = .done then .done else .err .transportWriteFailure

/-- A write to the transport hands the bytes over and answers what the transport answered (R174, R199). -/
theorem State.send_eq (s : State) (bs : List Byte) :
    s.send bs = (s.afterWrite bs).respond (writeResponse s.writeAnswer) := by
  rcases s.send_cases bs with ⟨ha, hsend⟩ | ⟨ha, hsend⟩ <;> rw [hsend, ha] <;> rfl

theorem exec_sendMode_of_idle {s : State} (hi : s.idle = true) (m : OutputMode) :
    exec (.sendMode m) s = .next ((s.afterWrite (modeFrame m)).respond (writeResponse s.writeAnswer)) :=
  (State.whenIdle_of_idle hi _).trans (congrArg _ (s.send_eq _))

/-- A write draws no read answer and no answer of the clock (R199). -/
theorem Env.afterWrite_reads (e : Env) : e.afterWrite.reads = e.reads := by unfold Env.afterWrite; split <;> rfl

theorem Env.afterWrite_expired (e : Env) : e.afterWrite.expired = e.expired := by unfold Env.afterWrite; split <;> rfl

/-- A write that is answered leaves the block's state as it was (R174). -/
theorem State.afterWrite_respond_sameBlock (s : State) (bs : List Byte) (r : Response) :
    SameBlock s ((s.afterWrite bs).respond r) := ⟨rfl, rfl, rfl, rfl, rfl⟩

/-- Select code 8 is SEND_MODE of the mode that `mode[0]` names (R91). -/
theorem decode_op8 {c : Nat} {p : PortIn} {m : OutputMode} (hop : p.op = 8) (hm : p.mode = modeBit m) :
    decode c (.port p) = .ok (.sendMode m) := by
  cases m <;> simp [decode, decodePort, hop, hm, modeBit]

/-- Settles O55: SEND_MODE draws the listed answer, and its frame is the one R83 writes out. -/
theorem sendModeHandsFrameToTransport : Obligations.SendModeHandsFrameToTransport := by
  intro s m a rest hi hw
  have hx := exec_sendMode_of_idle hi m
  rw [State.writeAnswer_of_writes hw] at hx
  refine ⟨fun p hop hm => decode_op8 hop (hm.trans ?_), _, hx, ?_, rfl, s.afterWrite_respond_sameBlock _ _,
    Env.afterWrite_of_writes hw, rfl⟩
  · cases m <;> rfl
  · cases m with
    | minimal => exact congrArg (s.handed ++ [·]) modeFrame_minimal
    | standard => exact congrArg (s.handed ++ [·]) modeFrame_standard

/-- Settles O56: whichever the write answer, the response is one of two, and the write draws nothing else. -/
theorem sendModeAlwaysAnswers : Obligations.SendModeAlwaysAnswers := by
  intro s m hi
  exact ⟨_, _, exec_sendMode_of_idle hi m, rfl, ite_eq_or_eq _ _ _, rfl, s.env.afterWrite_reads,
    s.env.afterWrite_expired, s.afterWrite_respond_sameBlock _ _, rfl⟩

end Sys2Proof.Machine
end

section
/-! PROOF. The errors (spec/60_exceptions.md): the status codes, the reserved select codes, a read answer outside the
transport's contract, and what an error response leaves unchanged. -/

namespace Sys2Proof.Machine

/-! ## Status codes -/

theorem Err.code_ne_zero (e : Err) : e.code ≠ 0 := by
  cases e <;> simp [Err.code]

/-- Status 0 is the status of the normal responses (R92). -/
theorem Response.status_eq_zero_iff (r : Response) : r.status = 0 ↔ ∀ e, r ≠ .err e := by
  cases r with
  | err e => exact iff_of_false e.code_ne_zero fun h => h e rfl
  | done | window _ | scanned _ _ | packets _ | reading _ | frame _ => exact iff_of_true rfl fun _ => nofun

/-- Settles O13: the codes are those of the table, none of which is 0. -/
theorem statusCodesOfResponses : Obligations.StatusCodesOfResponses :=
  ⟨rfl, rfl, fun _ _ => rfl, rfl, fun _ => rfl, Response.status_eq_zero_iff⟩

/-! ## Reserved select codes -/

theorem decode_op0 {c : Nat} {p : PortIn} (h : p.op = 0) : decode c (.port p) = .ok .reserved0 := by
  simp [decode, decodePort, h]

theorem decode_op9F {c : Nat} {p : PortIn} (h : 9 ≤ p.op.toNat) : decode c (.port p) = .ok (.reserved9F p.op) := by
  change decodePort c p = _
  unfold decodePort
  split
  case h_10 => rfl
  all_goals omega

/-- A reserved select code decodes to its row, and either row has the one meaning: `IllegalOp` (R93, R189). -/
theorem decode_reserved {p : PortIn} (c : Nat) (h : p.op = 0 ∨ 9 ≤ p.op.toNat) :
    ∃ i, decode c (.port p) = .ok i ∧ (p.op = 0 → i = .reserved0) ∧ (9 ≤ p.op.toNat → i = .reserved9F p.op) ∧
      ∀ s, exec i s = s.whenIdle (.next (s.raise .illegalOp)) := by
  rcases h with h0 | h9
  · exact ⟨_, decode_op0 h0, fun _ => rfl, fun h9 => by simp [h0] at h9, fun _ => rfl⟩
  · exact ⟨_, decode_op9F h9, fun h0 => by simp [h0] at h9, fun _ => rfl, fun _ => rfl⟩

/-- Settles O58: the code decodes to a reserved row, whose step is the error response and nothing else. -/
theorem reservedCodesAnswerIllegalOp : Obligations.ReservedCodesAnswerIllegalOp := by
  intro s p rest hi hh hop
  obtain ⟨i, hd, h0, h9, hexec⟩ := decode_reserved s.cfg.capacity hop
  have hnext : exec i (s.setHost rest) = .next ((s.setHost rest).raise .illegalOp) :=
    (hexec _).trans (State.whenIdle_of_idle (s := s.setHost rest) hi _)
  exact ⟨_, i, hd, h0, h9, hnext, (step_op hi hh hd).trans hnext, rfl, ⟨rfl, rfl, rfl, rfl, rfl⟩, rfl, rfl, rfl⟩

/-! ## A read answer outside the contract -/

/-- A read answer outside the contract is given no step, whatever would be done with it (R198). -/
theorem State.withRead_of_tooLong {s : State} (h : s.readTooLong = true) (k : ReadAnswer → State → State) :
    s.withRead k = .fault (.readAnswerTooLong s.cfg.chunkMax (readSize s.readAnswer)) := by
  simp [State.withRead, h]

/-- Settles O45: POLL and the iteration of READ_LATEST both begin with the read, which has no step. -/
theorem overlongReadAnswerHasNoStep : Obligations.OverlongReadAnswerHasNoStep := by
  intro s bs rest hr hlong hi
  have htoo : s.readTooLong = true := by rw [State.readTooLong_of_reads hr]; exact decide_eq_true hlong
  have hread (k : ReadAnswer → State → State) :
      s.whenIdle (s.withRead k) = .fault (.readAnswerTooLong s.cfg.chunkMax bs.length) := by
    rw [State.whenIdle_of_idle hi, State.withRead_of_tooLong htoo, State.readAnswer_of_reads hr]
    rfl
  exact ⟨hread _, hread _⟩

/-! ## Precise errors -/

/-- If `t` comes from `s` by an error response, the block of `t` is that of `s` with no READ_LATEST waiting, and no host move
was taken (R191). -/
def State.PreciseError (s t : State) : Prop :=
  ∀ e, t.responses = s.responses ++ [.err e] → SameBlock (s.setWaiting false) t ∧ t.host = s.host

section
variable {s t : State}

namespace State.PreciseError

theorem of_silent (h : t.responses = s.responses) : s.PreciseError t := by
  intro e he
  simp [h] at he

theorem of_normal {a : Response} (h : t.responses = s.responses ++ [a]) (ha : a.status = 0) : s.PreciseError t := by
  intro e he
  obtain ⟨⟩ := List.append_cancel_left (h.symm.trans he)
  exact absurd ha e.code_ne_zero

/-- An operation that leaves the block as it was is precise, whatever it answers. -/
theorem of_sameBlock (hi : s.idle = true) (hb : SameBlock s t) (hh : t.host = s.host) : s.PreciseError t :=
  fun _ _ => ⟨{ hb with waiting := hb.waiting.trans (State.waiting_of_idle hi) }, hh⟩

/-- Taking an exception writes nothing of the block (R191). -/
theorem raise (hi : s.idle = true) (e : Err) : s.PreciseError (s.raise e) :=
  of_sameBlock hi (s.respond_sameBlock _) rfl

theorem respondOrRaise {α : Type} (hi : s.idle = true) (ok : α → Response) (x : Except Err α) :
    s.PreciseError (s.respondOrRaise ok x) := by
  rcases State.respondOrRaise_cases s ok x with ⟨_, -, e⟩ | ⟨_, -, e⟩ <;> rw [e] <;>
    exact of_sameBlock hi (s.respond_sameBlock _) rfl

end State.PreciseError

open State.PreciseError

theorem execDrain_preciseError {n : Nat} (h : execDrain n s = .next t) : s.PreciseError t := by
  obtain ⟨hi, ⟨⟩⟩ := State.whenIdle_next h
  split
  · exact raise hi _
  · exact of_normal rfl rfl

/-- A read that fails has appended nothing (R151, R186). -/
theorem execPoll_preciseError (h : execPoll s = .next t) : s.PreciseError t := by
  obtain ⟨hi, h⟩ := State.whenIdle_next h
  obtain ⟨-, rfl⟩ := State.withRead_next h
  cases s.readAnswer with
  | fail => exact of_sameBlock hi ⟨rfl, rfl, rfl, rfl, rfl⟩ rfl
  | data bs => exact of_normal rfl rfl

/-- An iteration of READ_LATEST that fails, the first or a later one, has appended nothing and ends the call (R158, R186). -/
theorem State.latestIteration_preciseError (h : s.latestIteration = .next t) : s.PreciseError t := by
  obtain ⟨-, rfl⟩ := State.withRead_next h
  rcases State.latestAnswered_cases s.readAnswer s.afterRead with ⟨-, e⟩ | ⟨bs, p, -, -, e⟩ | ⟨bs, -, -, e⟩ <;> rw [e]
  · exact fun _ _ => ⟨⟨rfl, rfl, rfl, rfl, rfl⟩, rfl⟩
  · exact of_normal rfl rfl
  · rcases State.timeCheck_cases (s.afterRead.polled bs) with ⟨-, e⟩ | ⟨-, e⟩ <;> rw [e]
    · exact of_normal rfl rfl
    · exact of_silent rfl

/-- A write that fails has handed its bytes over and changed nothing of the block (R187). -/
theorem execSendMode_preciseError {mode : OutputMode} (h : execSendMode mode s = .next t) : s.PreciseError t := by
  obtain ⟨hi, ⟨⟩⟩ := State.whenIdle_next h
  rw [State.send_eq]
  exact of_sameBlock hi (s.afterWrite_respond_sameBlock _ _) rfl

theorem execBuildCommand_preciseError {code : Half} {params : List Byte} (h : execBuildCommand code params s = .next t) :
    s.PreciseError t := by
  obtain ⟨hi, ⟨⟩⟩ := State.whenIdle_next h
  exact respondOrRaise hi _ _

theorem whenIdle_raise_preciseError {e : Err} (h : s.whenIdle (.next (s.raise e)) = .next t) : s.PreciseError t := by
  obtain ⟨hi, ⟨⟩⟩ := State.whenIdle_next h
  exact raise hi e

/-- A guarded operation that always answers normally. -/
theorem whenIdle_normal_preciseError {u : State} {a : Response} (h : s.whenIdle (.next u) = .next t)
    (hu : u.responses = s.responses ++ [a]) (ha : a.status = 0) : s.PreciseError t := by
  obtain ⟨-, ⟨⟩⟩ := State.whenIdle_next h
  exact of_normal hu ha

/-- A stream-level row answers a scan or nothing: no bytes of a window are an error (R90). -/
theorem State.streamStep_preciseError {bytes : List Byte} {f : ScanRun → ScanRun}
    (h : s.streamStep bytes f = .next t) : s.PreciseError t := by
  unfold State.streamStep at h
  split at h
  · split at h
    · cases h
    · cases h; exact of_silent rfl
  · exact whenIdle_normal_preciseError h (State.closeScan_responses _ _) rfl

theorem execFrameStd_preciseError {payload : List Byte} (h : execFrameStd payload s = .next t) : s.PreciseError t := by
  unfold execFrameStd at h
  split at h
  · cases h; exact of_silent rfl
  · exact whenIdle_normal_preciseError h (State.closeScan_responses _ _) rfl

/-- Every instruction's errors are precise (R191). -/
theorem exec_preciseError {i : Instr} (h : exec i s = .next t) : s.PreciseError t := by
  cases i with
  | append b => exact whenIdle_normal_preciseError h (State.respond_responses _ _) rfl
  | drain n => exact execDrain_preciseError h
  | snapshot => exact whenIdle_normal_preciseError h (State.respond_responses _ _) rfl
  | scan => exact whenIdle_normal_preciseError h (State.respond_responses _ _) rfl
  | poll => exact execPoll_preciseError h
  | readLatest => exact State.latestIteration_preciseError (State.whenIdle_next h).2
  | buildCommand code params => exact execBuildCommand_preciseError h
  | sendMode mode => exact execSendMode_preciseError h
  | reserved0 => exact whenIdle_raise_preciseError h
  | reserved9F op => exact whenIdle_raise_preciseError h
  | frameMin state lo hi => exact State.streamStep_preciseError h
  | skip b0 b1 b2 b3 b4 => exact State.streamStep_preciseError h
  | cmd code params => exact execBuildCommand_preciseError h
  | cmdSetMin => exact whenIdle_normal_preciseError h (State.respond_responses _ _) rfl
  | cmdSetStd => exact whenIdle_normal_preciseError h (State.respond_responses _ _) rfl
  | frameStd payload => exact execFrameStd_preciseError h

end

/-- While READ_LATEST waits, the step is its next iteration (R158). -/
theorem step_eq_latestIteration {s : State} (hw : s.waiting = true) : step s = s.latestIteration := by
  simp [step, State.fetch, hw]

/-- Settles O59: an instruction's error and an iteration's error are precise, and the block is ready after either. -/
theorem errorsLeaveTheBlockUnchanged : Obligations.ErrorsLeaveTheBlockUnchanged := by
  refine ⟨fun s t i e hi h he => ?_, fun s t e hw h he => ?_⟩
  · obtain ⟨hb, hhost⟩ := exec_preciseError h e he
    have hready : t.idle = true := (State.idle_iff t).mpr ⟨hb.scan.trans (State.scan_of_idle (s := s) hi), hb.waiting⟩
    exact ⟨{ hb with waiting := hb.waiting.trans (State.waiting_of_idle hi).symm }, hready, hhost⟩
  · rw [step_eq_latestIteration hw] at h
    obtain ⟨⟨hcfg, hfifo, hlast, hscan, hwait⟩, hhost⟩ := State.latestIteration_preciseError h e he
    exact ⟨hcfg, hfifo, hlast, hscan, hwait, hhost⟩

end Sys2Proof.Machine
end

section
/-! PROOF. One operation at a time (spec/70_reset_and_hazards.md): an operation in progress leaves no other operation a
meaning (R220), and its steps take no host move (R224). -/

namespace Sys2Proof.Machine

/-! ## Overlapping operations -/

/-- Every instruction of the operation port is guarded: it runs between operations only (R91, R220). -/
theorem exec_eq_whenIdle_of_decodePort {c : Nat} {p : PortIn} {i : Instr} (s : State) (h : decodePort c p = .ok i) :
    ∃ o, exec i s = s.whenIdle o := by
  unfold decodePort at h
  split at h
  case h_3 => split at h <;> cases h; exact ⟨_, rfl⟩
  case h_8 => split at h <;> cases h; exact ⟨_, rfl⟩
  all_goals cases h; exact ⟨_, rfl⟩

/-- An operation issued while another is in progress has no meaning (R220). -/
theorem exec_port_of_busy {c : Nat} {s : State} {p : PortIn} {i : Instr} (hbusy : s.idle = false)
    (hd : decode c (.port p) = .ok i) : exec i s = .refused .operationInProgress := by
  obtain ⟨o, ho⟩ := exec_eq_whenIdle_of_decodePort s hd
  exact ho.trans (State.whenIdle_of_busy hbusy o)

/-! ## The host's moves -/

@[simp] theorem State.timeCheck_host (s : State) : s.timeCheck.host = s.host := by
  rcases State.timeCheck_cases s with ⟨-, e⟩ | ⟨-, e⟩ <;> simp [e]

@[simp] theorem State.latestAnswered_host (a : ReadAnswer) (s : State) : (State.latestAnswered a s).host = s.host := by
  rcases State.latestAnswered_cases a s with ⟨-, e⟩ | ⟨_, _, -, -, e⟩ | ⟨_, -, -, e⟩ <;> simp [e]

/-- An iteration of READ_LATEST takes no host move (R158, R224). -/
theorem State.latestIteration_host {s t : State} (h : s.latestIteration = .next t) : t.host = s.host := by
  obtain ⟨-, rfl⟩ := State.withRead_next h
  exact State.latestAnswered_host _ _

/-- Every step that begins with an operation in progress goes on with it: an iteration of the wait, the end of the scan, or
a stream-level step of it. -/
theorem step_cases_of_busy {s t : State} (hbusy : s.idle = false) (h : step s = .next t) :
    s.latestIteration = .next t ∨ (∃ r, t = s.closeScan r) ∨ ∃ r, t = s.setScan (some r) := by
  rcases step_cases h with ⟨-, h⟩ | ⟨r, -, -, -, rfl⟩ | ⟨r, -, -, -, rfl⟩ | ⟨_, _, _, hi, -⟩ | ⟨_, _, _, hi, -⟩ |
    ⟨_, _, _, hi, -⟩ | ⟨hi, -⟩
  · exact .inl h
  · exact .inr (.inl ⟨r, rfl⟩)
  · exact .inr (.inr ⟨_, rfl⟩)
  all_goals exact absurd hi (Bool.eq_false_iff.mp hbusy)

theorem step_host_of_busy {s t : State} (hbusy : s.idle = false) (h : step s = .next t) : t.host = s.host := by
  rcases step_cases_of_busy hbusy h with h | ⟨r, rfl⟩ | ⟨r, rfl⟩
  · exact State.latestIteration_host h
  · exact State.closeScan_host s r
  · exact State.setScan_host s (some r)

/-- Settles O6: the port's instructions are guarded, and a step goes on with the operation in progress. -/
theorem overlappingOperationsHaveNoStep : Obligations.OverlappingOperationsHaveNoStep :=
  ⟨fun _ _ _ hbusy hd => exec_port_of_busy hbusy hd, fun _ _ hbusy h => step_host_of_busy hbusy h⟩

end Sys2Proof.Machine
end
